-- ==== Sys2Proof/Word.lean ====
section
/-! DEFINITION. The word types of REGULAR: 32-bit registers and addresses, 8-bit bytes and register fields, the 16-bit
immediate (00_scope.md R2, 10_state.md R10, 20_memory.md R30, 30_encoding.md R51). -/

namespace Sys2Proof

/-- A 32-bit register content, address or instruction word. -/
abbrev Word := BitVec 32

/-- A byte of memory, and an 8-bit field of an instruction. -/
abbrev Byte := BitVec 8

/-- The 16-bit immediate of format `op rA imm`. -/
abbrev Imm16 := BitVec 16

end Sys2Proof
end

