-- ==== Sys2Proof/Syntax.lean ====
section
/-! DEFINITION. The instructions of REGULAR: one constructor for each row of spec/opcode_table.json (30_encoding.md R58),
and the shapes of their encodings (R51, R53). -/

namespace Sys2Proof

/-- A register number, `r0` to `r31` (10_state.md R10). No other number names a register (30_encoding.md R55). -/
abbrev Reg := Fin 32

/-- `r0`, the program counter; assemblers call it `pc` (10_state.md R12, R16). -/
abbrev Reg.pc : Reg := 0

/-- `r31`, which assemblers call `sp`: a convention of software, not of the hardware (10_state.md R16). -/
abbrev Reg.sp : Reg := 31

/-- The instruction set (R58). Operands stand in the source's order, `rA rB rC` or `rA imm` (R62). `rA` is the destination,
but for `stw` and `stb`, where it holds the address. Bits a format ignores are no operand (R54). -/
inductive Instr where
  | nop
  | add (rA rB rC : Reg)
  | sub (rA rB rC : Reg)
  | and (rA rB rC : Reg)
  | orr (rA rB rC : Reg)
  | xor (rA rB rC : Reg)
  | not (rA rB : Reg)
  | lsh (rA rB rC : Reg)
  | ash (rA rB rC : Reg)
  | tcu (rA rB rC : Reg)
  | tcs (rA rB rC : Reg)
  | set (rA : Reg) (imm : Imm16)
  | mov (rA rB : Reg)
  | ldw (rA rB : Reg)
  | stw (rA rB : Reg)
  | ldb (rA rB : Reg)
  | stb (rA rB : Reg)
deriving DecidableEq, Repr

/-- The name of an instruction in the table of R58. -/
def Instr.mnemonic : Instr → String
  | .nop => "nop"
  | .add _ _ _ => "add"
  | .sub _ _ _ => "sub"
  | .and _ _ _ => "and"
  | .orr _ _ _ => "orr"
  | .xor _ _ _ => "xor"
  | .not _ _ => "not"
  | .lsh _ _ _ => "lsh"
  | .ash _ _ _ => "ash"
  | .tcu _ _ _ => "tcu"
  | .tcs _ _ _ => "tcs"
  | .set _ _ => "set"
  | .mov _ _ => "mov"
  | .ldw _ _ => "ldw"
  | .stw _ _ => "stw"
  | .ldb _ _ => "ldb"
  | .stb _ _ => "stb"

/-- The register an instruction writes (45_control_transfer.md R100): 14 have one, `nop`, `stw` and `stb` have none. -/
def Instr.dest? : Instr → Option Reg
  | .nop => none
  | .add rA _ _ => some rA
  | .sub rA _ _ => some rA
  | .and rA _ _ => some rA
  | .orr rA _ _ => some rA
  | .xor rA _ _ => some rA
  | .not rA _ => some rA
  | .lsh rA _ _ => some rA
  | .ash rA _ _ => some rA
  | .tcu rA _ _ => some rA
  | .tcs rA _ _ => some rA
  | .set rA _ => some rA
  | .mov rA _ => some rA
  | .ldw rA _ => some rA
  | .stw _ _ => none
  | .ldb rA _ => some rA
  | .stb _ _ => none

/-- The four bytes of an instruction word: the opcode and the three 8-bit fields, before anything is checked (R51, R52). -/
structure Fields where
  op : Byte
  A  : Byte
  B  : Byte
  C  : Byte
deriving DecidableEq, Repr

/-- Which field of an instruction word a decoding error is about. -/
inductive FieldName where
  | fieldA
  | fieldB
  | fieldC
deriving DecidableEq, Repr

/-- The six formats of 30_encoding.md R53. -/
inductive Format where
  | op
  | opA
  | opAImm
  | opAB
  | opABImm
  | opABC
deriving DecidableEq, Repr

/-- A row of the opcode map (R58): a word is the row's instruction when `word & mask = pattern`. -/
structure OpcodeRow where
  mnemonic : String
  format   : Format
  pattern  : Word
  mask     : Word
deriving DecidableEq, Repr

end Sys2Proof
end

