-- ==== Sys2Proof/Decode.lean ====
section
/-! DEFINITION. The decoder (30_encoding.md R65), total on any word and any bytes and rejecting by name, then the encoder,
written from the formats of R53 and the opcodes of R58, and the opcode map itself. -/

namespace Sys2Proof

/-- Why bytes are no instruction. Each is `IllegalInstruction` of 60_exceptions.md R111 when it is met by a step, but for
`tooShort`, which a step never meets since it fetches 4 bytes. -/
inductive DecodeError where
  /-- Fewer than the 4 bytes an instruction occupies (R50). -/
  | tooShort (got : Nat)
  /-- The opcode is assigned to no instruction (R59). -/
  | unassignedOpcode (op : Byte)
  /-- A used register field is above 31 (R55). -/
  | noSuchRegister (field : FieldName) (number : Byte)
deriving DecidableEq, Repr

/-- The fields of a word: `op = w[7:0]`, `A = w[15:8]`, `B = w[23:16]`, `C = w[31:24]` (R51). -/
def Fields.ofWord (w : Word) : Fields where
  op := w.extractLsb' 0 8
  A  := w.extractLsb' 8 8
  B  := w.extractLsb' 16 8
  C  := w.extractLsb' 24 8

/-- The word of four fields: `op + 2^8 * A + 2^16 * B + 2^24 * C` (R51). -/
def Fields.toWord (f : Fields) : Word := f.C ++ f.B ++ f.A ++ f.op

/-- The 16-bit immediate `w[31:16]`, whose low byte stands where `B` does and whose high byte where `C` does (R51, R52). -/
def Fields.imm16 (f : Fields) : Imm16 := f.C ++ f.B

/-- A used register field: numbers 0 to 31 name a register, 32 to 255 make the word illegal (R55). -/
def decodeReg (field : FieldName) (b : Byte) : Except DecodeError Reg :=
  if h : b.toNat < 32 then .ok ⟨b.toNat, h⟩ else .error (.noSuchRegister field b)

/-- Format `op rA imm` (R53). -/
def decodeAImm (f : Fields) (mk : Reg → Imm16 → Instr) : Except DecodeError Instr :=
  match decodeReg .fieldA f.A with
  | .error e => .error e
  | .ok rA => .ok (mk rA f.imm16)

/-- Format `op rA rB` (R53): bits 31 to 24 are ignored. -/
def decodeAB (f : Fields) (mk : Reg → Reg → Instr) : Except DecodeError Instr :=
  match decodeReg .fieldA f.A, decodeReg .fieldB f.B with
  | .error e, _ => .error e
  | .ok _, .error e => .error e
  | .ok rA, .ok rB => .ok (mk rA rB)

/-- Format `op rA rB rC` (R53). -/
def decodeABC (f : Fields) (mk : Reg → Reg → Reg → Instr) : Except DecodeError Instr :=
  match decodeReg .fieldA f.A, decodeReg .fieldB f.B, decodeReg .fieldC f.C with
  | .error e, _, _ => .error e
  | .ok _, .error e, _ => .error e
  | .ok _, .ok _, .error e => .error e
  | .ok rA, .ok rB, .ok rC => .ok (mk rA rB rC)

/-- `op` alone selects the instruction (R58). -/
def decodeFields (f : Fields) : Except DecodeError Instr :=
  match f.op.toNat with
  | 0x00 => .ok .nop
  | 0x01 => decodeABC f .add
  | 0x02 => decodeABC f .sub
  | 0x03 => decodeABC f .and
  | 0x04 => decodeABC f .orr
  | 0x05 => decodeABC f .xor
  | 0x06 => decodeAB f .not
  | 0x07 => decodeABC f .lsh
  | 0x08 => decodeABC f .ash
  | 0x09 => decodeABC f .tcu
  | 0x0A => decodeABC f .tcs
  | 0x0B => decodeAImm f .set
  | 0x0C => decodeAB f .mov
  | 0x0D => decodeAB f .ldw
  | 0x0E => decodeAB f .stw
  | 0x0F => decodeAB f .ldb
  | 0x10 => decodeAB f .stb
  | _ => .error (.unassignedOpcode f.op)

/-- Decoding a fetched word (R65). -/
def decode (w : Word) : Except DecodeError Instr := decodeFields (Fields.ofWord w)

/-- Decoding from bytes in memory order, the first at the lowest address (R52); answers the bytes after the instruction. -/
def decodeBytes : List Byte → Except DecodeError (Instr × List Byte)
  | op :: a :: b :: c :: rest =>
    match decodeFields ⟨op, a, b, c⟩ with
    | .error e => .error e
    | .ok i => .ok (i, rest)
  | [] => .error (.tooShort 0)
  | [_] => .error (.tooShort 1)
  | [_, _] => .error (.tooShort 2)
  | [_, _, _] => .error (.tooShort 3)

/-- The 8-bit field that holds a register number (R55). -/
def encodeReg (r : Reg) : Byte := BitVec.ofNat 8 r.val

/-- Format `op` (R53), zeros in the ignored bits (R54). -/
def encodeOp (op : Byte) : Fields := ⟨op, 0, 0, 0⟩

/-- Format `op rA imm` (R53): the low byte of the immediate first (R52). -/
def encodeAImm (op : Byte) (rA : Reg) (imm : Imm16) : Fields :=
  ⟨op, encodeReg rA, imm.extractLsb' 0 8, imm.extractLsb' 8 8⟩

/-- Format `op rA rB` (R53), zeros in the ignored bits (R54). -/
def encodeAB (op : Byte) (rA rB : Reg) : Fields := ⟨op, encodeReg rA, encodeReg rB, 0⟩

/-- Format `op rA rB rC` (R53). -/
def encodeABC (op : Byte) (rA rB rC : Reg) : Fields := ⟨op, encodeReg rA, encodeReg rB, encodeReg rC⟩

/-- The four bytes an assembler writes for an instruction (R53, R58). -/
def encodeFields : Instr → Fields
  | .nop => encodeOp 0x00
  | .add rA rB rC => encodeABC 0x01 rA rB rC
  | .sub rA rB rC => encodeABC 0x02 rA rB rC
  | .and rA rB rC => encodeABC 0x03 rA rB rC
  | .orr rA rB rC => encodeABC 0x04 rA rB rC
  | .xor rA rB rC => encodeABC 0x05 rA rB rC
  | .not rA rB => encodeAB 0x06 rA rB
  | .lsh rA rB rC => encodeABC 0x07 rA rB rC
  | .ash rA rB rC => encodeABC 0x08 rA rB rC
  | .tcu rA rB rC => encodeABC 0x09 rA rB rC
  | .tcs rA rB rC => encodeABC 0x0A rA rB rC
  | .set rA imm => encodeAImm 0x0B rA imm
  | .mov rA rB => encodeAB 0x0C rA rB
  | .ldw rA rB => encodeAB 0x0D rA rB
  | .stw rA rB => encodeAB 0x0E rA rB
  | .ldb rA rB => encodeAB 0x0F rA rB
  | .stb rA rB => encodeAB 0x10 rA rB

/-- The word of an instruction (R51). -/
def encode (i : Instr) : Word := (encodeFields i).toWord

/-- The bytes of an instruction in memory order (R52). -/
def encodeBytes (i : Instr) : List Byte :=
  [(encodeFields i).op, (encodeFields i).A, (encodeFields i).B, (encodeFields i).C]

/-- The bits of a word that an instruction's format does not mark "ignored" (R53). -/
def Instr.usedBits : Instr → Word
  | .nop => 0x000000FF
  | .not _ _ | .mov _ _ | .ldw _ _ | .stw _ _ | .ldb _ _ | .stb _ _ => 0x00FFFFFF
  | .add _ _ _ | .sub _ _ _ | .and _ _ _ | .orr _ _ _ | .xor _ _ _ | .lsh _ _ _ | .ash _ _ _ | .tcu _ _ _ | .tcs _ _ _
  | .set _ _ => 0xFFFFFFFF

/-- The opcode map of R58, row by row. The decoder above does not use it; the two are compared by a statement. -/
def opcodeTable : List OpcodeRow :=
  [⟨"nop", .op, 0x00000000, 0x000000FF⟩,
   ⟨"add", .opABC, 0x00000001, 0xE0E0E0FF⟩,
   ⟨"sub", .opABC, 0x00000002, 0xE0E0E0FF⟩,
   ⟨"and", .opABC, 0x00000003, 0xE0E0E0FF⟩,
   ⟨"orr", .opABC, 0x00000004, 0xE0E0E0FF⟩,
   ⟨"xor", .opABC, 0x00000005, 0xE0E0E0FF⟩,
   ⟨"not", .opAB, 0x00000006, 0x00E0E0FF⟩,
   ⟨"lsh", .opABC, 0x00000007, 0xE0E0E0FF⟩] ++
  [⟨"ash", .opABC, 0x00000008, 0xE0E0E0FF⟩,
   ⟨"tcu", .opABC, 0x00000009, 0xE0E0E0FF⟩,
   ⟨"tcs", .opABC, 0x0000000A, 0xE0E0E0FF⟩,
   ⟨"set", .opAImm, 0x0000000B, 0x0000E0FF⟩,
   ⟨"mov", .opAB, 0x0000000C, 0x00E0E0FF⟩,
   ⟨"ldw", .opAB, 0x0000000D, 0x00E0E0FF⟩,
   ⟨"stw", .opAB, 0x0000000E, 0x00E0E0FF⟩,
   ⟨"ldb", .opAB, 0x0000000F, 0x00E0E0FF⟩,
   ⟨"stb", .opAB, 0x00000010, 0x00E0E0FF⟩]

/-- A word matches a row (R58). -/
def OpcodeRow.admits (row : OpcodeRow) (w : Word) : Bool := w &&& row.mask == row.pattern

/-- The instruction word of which the low `nbits` bits of `w` are given and every other bit is 0. -/
def tableWord (nbits w : Nat) : Word := BitVec.ofNat 32 (w % 2 ^ nbits)

/-- The bytes of a word in memory order: little-endian (20_memory.md R32, R35). -/
def bytesOfWord (w : Word) : List Byte :=
  [w.extractLsb' 0 8, w.extractLsb' 8 8, w.extractLsb' 16 8, w.extractLsb' 24 8]

/-- The instruction the decoder reads from a word of the opcode table, laid out as bytes in memory. -/
def decodeTableWord (nbits w : Nat) : Option Instr :=
  match decodeBytes (bytesOfWord (tableWord nbits w)) with
  | .error _ => none
  | .ok (i, _) => some i

end Sys2Proof
end

