-- ==== Sys2Proof/Config.lean ====
section
/-! DEFINITION. The parameters of 00_scope.md R3 that a step reads, as plain data, and the free value of 41_shift.md R82.
ENTRY and IMAGE, which only a reset reads, are in Machine/Launch.lean. -/

namespace Sys2Proof

/-- A range of byte addresses, both ends included (so that the whole address space is one range). -/
structure Region where
  first : Word
  last  : Word
deriving DecidableEq, Repr

/-- Which unbacked byte of an access a fault names where the spec gives two answers: a word that wraps past the top of the
address space, with unbacked bytes on both sides of the wrap. DESIGN CHOICE: both answers are kept, as a parameter. Log
entry 10. -/
inductive HoleReport where
  /-- "the lowest touched address that is not in `MEM`" (20_memory.md R31, 60_exceptions.md R111). -/
  | lowest
  /-- The first in access order, as the loops of 20_memory.md R33 and R34 find it. -/
  | firstInAccessOrder
deriving DecidableEq, Repr

/-- The parameters of R3, and one of the model's own: fixed for a launch, read by the step, changed by nothing. Every set of 32-bit addresses is a
finite union of ranges, so `backed` can be any `MEM`. -/
structure Config where
  /-- `MEM`: the backed addresses (20_memory.md R31). -/
  backed       : List Region
  /-- `END_ADDRS`: the addresses at which a run is over (70_reset_and_hazards.md R132). -/
  endAddrs     : List Word
  /-- `MISALIGNED_OK` (20_memory.md R36, R37). -/
  misalignedOk : Bool
  /-- `SIGN_NEG`: what `tcu` and `tcs` write for a negative difference (42_compare.md R87). -/
  signNeg      : Word
  /-- `SIGN_ZERO`: the same for a zero difference. -/
  signZero     : Word
  /-- `SIGN_POS`: the same for a positive difference. -/
  signPos      : Word
  /-- Which unbacked byte a fault names: the model's own parameter (log entry 10). -/
  holeReport   : HoleReport
deriving DecidableEq, Repr

/-- The values the spec's test vectors use (00_scope.md R3, column "value used in 95_test_vectors.md"), with no end
address, and the report that R31 and R111 name. DESIGN CHOICE for the machine after reset: log entries 2, 10. -/
def Config.vectors : Config where
  backed       := [⟨0x00000000, 0x0000FFFF⟩]
  endAddrs     := []
  misalignedOk := false
  signNeg      := 0xFFFFFFFF
  signZero     := 0x00000000
  signPos      := 0x00000001
  holeReport   := .lowest

/-- `ENTRY` of the test vectors (R3). DESIGN CHOICE for the machine after reset: log entry 3. -/
def Config.vectorsEntry : Word := 0x00000000

/-- What `r1` to `r31` hold in `State.reset`. 10_state.md R23 gives no value. DESIGN CHOICE: log entry 4. -/
def Config.resetReg : Word := 0

/-- `ANY_32` of 41_shift.md R82: the `n`-th free value. It has no body, so nothing constrains it. Log entry 6. -/
opaque Config.freeWord : Nat → Word

end Sys2Proof
end

