-- ==== Sys2Proof/Machine/State.lean ====
section
/-! DEFINITION. The state of the machine as plain data (10_state.md: 32 registers, of which `r0` is the program counter, and
the memory), the reasons a step can stop (60_exceptions.md R111), and the machine right after reset. -/

namespace Sys2Proof.Machine

/-- What an access is for (20_memory.md R31). -/
inductive AccessKind where
  | fetch
  | load
  | store
deriving DecidableEq, Repr

/-- How wide an access is (20_memory.md R39): there are no others. -/
inductive Width where
  | byte
  | word
deriving DecidableEq, Repr

/-- The faults of 60_exceptions.md R111, each with the information R111 has it record; `a` is the address of the instruction
whose step raises it. No other fault exists. All are the spec's own decisions (D5 to D9, D16) and safe: the model stops where a
real machine might go on. -/
inductive Fault where
  /-- Raised by the fetch when `a` is no multiple of 4 and `MISALIGNED_OK = false` (20_memory.md R37). Safe. -/
  | misalignedFetch (a : Word)
  /-- Raised by the fetch, `ldw`, `ldb`, `stw` and `stb` when a byte of the access is not backed; `addr` is the lowest such byte,
  or the first in access order (20_memory.md R31, R33, R34, R35; log entry 10). Safe. -/
  | accessFault (addr : Word) (kind : AccessKind) (a : Word)
  /-- Raised by the decode when the word is none of the 17 instructions (30_encoding.md R55, R59). Safe. -/
  | illegalInstruction (w : Word) (a : Word)
  /-- Raised by `ldw` and `stw` when `addr` is no multiple of 4 and `MISALIGNED_OK = false` (20_memory.md R36). Safe. -/
  | misalignedAccess (addr : Word) (kind : AccessKind) (a : Word)
deriving DecidableEq, Repr

/-- Why no step happens although nothing faulted. -/
inductive Refusal where
  /-- Raised by `exec` for an instruction that has no meaning yet: none is left. Safe. -/
  | notModelled (mnemonic : String)
  /-- Raised by `step` when `r0` is in `END_ADDRS` at an instruction boundary: the run is over, "no fetch is made from `x[0]`,
  no further step happens" (70_reset_and_hazards.md R132). Safe. Log entry 8. -/
  | runEnded
deriving DecidableEq, Repr

/-- Memory: pairs of a byte address and a byte, kept in the canonical form `Memory.wf` (Ops.lean). -/
abbrev Memory := List Host.Cell

/-- The state. `regs` and `mem` are all the architectural state there is (10_state.md, R10, R20). `draws` is the model's own
count of the free values drawn so far (log entries 6, 7). `cfg` holds the parameters of 00_scope.md R3, which no step changes
(log entry 1). -/
structure State where
  regs  : Vector Word 32
  mem   : Memory
  draws : Nat
  cfg   : Config
deriving DecidableEq, Repr

/-- The machine right after reset (70_reset_and_hazards.md R130) with the parameter values of the spec's vectors: `r0 = ENTRY`
(10_state.md R22), no image, and named values where the spec gives none (log entries 2 to 5, 7, 10). `State.launch` is the same for
every choice of those values. -/
def State.reset : State where
  regs  := (Vector.replicate 32 Config.resetReg).set 0 Config.vectorsEntry
  mem   := []
  draws := 0
  cfg   := Config.vectors

/-- What a step or a meaning answers. -/
abbrev Out := Host.Outcome State Fault Refusal

end Sys2Proof.Machine
end

