-- ==== Sys2Proof/Machine/Ops.lean ====
section
/-! DEFINITION. The shared operations: registers (10_state.md R10 to R14), memory bytes and words (20_memory.md R30 to R40), the
conditions of the faults (60_exceptions.md R111, R114), raising a fault (R115), the free value (41_shift.md R82) and the
boundary between two steps (10_state.md R13, 70_reset_and_hazards.md R132). -/

namespace Sys2Proof.Machine

/-! ## Registers -/

/-- `x[i]`. No register is hardwired: there is no zero register (R11). -/
def State.reg (s : State) (r : Reg) : Word := s.regs[r.val]

/-- `x[i] <- v` (R11: every register is writable, `r0` like any other, R12). -/
def State.setReg (s : State) (r : Reg) (v : Word) : State := { s with regs := s.regs.set r.val v }

/-- The program counter is `r0` itself (R12, R14). -/
def State.pc (s : State) : Word := s.reg Reg.pc

/-- `x[0] <- a + 4 (mod 2^32)`: step 4 of R25 (R13, R15). -/
def State.advancePc (s : State) : State := s.setReg Reg.pc (s.pc + 4)

/-- `a`, the address of the instruction being executed, as step 5 of R25 sees it: `x[0]` is then `a + 4`. Log entry 9. -/
def State.currentAddr (s : State) : Word := s.pc - 4

/-! ## The free value -/

/-- `ANY_32` (R82), the next one. -/
def State.anyWord (s : State) : Word := Config.freeWord s.draws

/-- A draw is made once: the next `ANY_32` is another one ("a fresh draw each time", R82). -/
def State.countDraw (s : State) : State := { s with draws := s.draws + 1 }

/-! ## Bytes of memory -/

/-- What an address that memory does not list reads as. R24 gives no value. DESIGN CHOICE: log entry 5. -/
def Memory.unlistedByte : Byte := 0

/-- The byte at an address. -/
def Memory.read : Memory → Nat → Byte
  | [], _ => Memory.unlistedByte
  | (k, v) :: rest, a => if k = a then v else Memory.read rest a

/-- The cell a written byte is listed as: none for the byte an unlisted address reads as. -/
def Memory.cell (a : Nat) (v : Byte) : Memory := if v = Memory.unlistedByte then [] else [(a, v)]

/-- Write one byte, keeping the addresses rising. -/
def Memory.write (m : Memory) (a : Nat) (v : Byte) : Memory :=
  m.filter (fun c => decide (c.1 < a)) ++ Memory.cell a v ++ m.filter (fun c => decide (a < c.1))

/-- The canonical form: addresses strictly rising and inside the 2^32 of R30, no entry that an unlisted address reads as. -/
abbrev Memory.wf (m : Memory) : Prop :=
  m.Pairwise (fun c d => c.1 < d.1) ∧ ∀ c ∈ m, c.1 < 2 ^ 32 ∧ c.2 ≠ Memory.unlistedByte

/-- `mem[a]` for a 32-bit address (R20, R30). -/
def State.byteAt (s : State) (a : Word) : Byte := s.mem.read a.toNat

/-- `mem[a] <- v`. -/
def State.setByte (s : State) (a : Word) (v : Byte) : State := { s with mem := s.mem.write a.toNat v }

/-- The 32-bit word whose bytes stand at `a` to `a + 3`, little-endian, each address mod 2^32 (R32, R33, R40). -/
def State.wordAt (s : State) (a : Word) : Word :=
  s.byteAt (a + 3) ++ s.byteAt (a + 2) ++ s.byteAt (a + 1) ++ s.byteAt a

/-- Store a 32-bit word at `a` to `a + 3`, little-endian, each address mod 2^32 (R32, R34, R40). -/
def State.setWord (s : State) (a : Word) (v : Word) : State :=
  (((s.setByte a (v.extractLsb' 0 8)).setByte (a + 1) (v.extractLsb' 8 8)).setByte (a + 2) (v.extractLsb' 16 8)).setByte
    (a + 3) (v.extractLsb' 24 8)

/-! ## Which accesses are admitted -/

/-- An address is in a range, both ends included. -/
def Region.contains (r : Region) (a : Word) : Bool := decide (r.first.toNat ≤ a.toNat) && decide (a.toNat ≤ r.last.toNat)

/-- An address is in `MEM` (R31). -/
def Config.isBacked (c : Config) (a : Word) : Bool := c.backed.any (fun r => Region.contains r a)

/-- The number of bytes an access moves (R39). -/
def Width.bytes : Width → Nat
  | .byte => 1
  | .word => 4

/-- The addresses an access touches, in access order, each mod 2^32 (R33, R34, R40). -/
def touched (w : Width) (addr : Word) : List Word := (List.range w.bytes).map (fun i => addr + BitVec.ofNat 32 i)

/-- The touched addresses that are not in `MEM`, in access order. -/
def unbackedBytes (c : Config) (w : Width) (addr : Word) : List Word :=
  (touched w addr).filter (fun b => !Config.isBacked c b)

/-- The numerically lowest address of a list. -/
def lowest? : List Word → Option Word
  | [] => none
  | a :: rest =>
    match lowest? rest with
    | none => some a
    | some b => some (if b.toNat < a.toNat then b else a)

/-- The unbacked address a fault names, if there is one: the lowest (R31, R111) or the first in access order (R33, R34), which
differ only where the access wraps past the top of the address space. Log entry 10. -/
def reportedUnbacked? (c : Config) (w : Width) (addr : Word) : Option Word :=
  match c.holeReport with
  | .lowest => lowest? (unbackedBytes c w addr)
  | .firstInAccessOrder => (unbackedBytes c w addr).head?

/-- The alignment condition fails: a word access or a fetch, `MISALIGNED_OK = false` and `addr[1:0] != 0` (R36, R37); a byte
access has none (R38). -/
def misaligned (c : Config) (w : Width) (addr : Word) : Bool :=
  match w with
  | .byte => false
  | .word => !c.misalignedOk && addr.extractLsb' 0 2 != 0

/-- The fault a fetch at `x[0]` raises, if any: alignment first (R114). -/
def fetchFault? (s : State) : Option Fault :=
  if misaligned s.cfg .word s.pc then some (.misalignedFetch s.pc)
  else
    match reportedUnbacked? s.cfg .word s.pc with
    | some b => some (.accessFault b .fetch s.pc)
    | none => none

/-- The fault a data access of the instruction being executed raises, if any: alignment first (R114). -/
def dataFault? (s : State) (kind : AccessKind) (w : Width) (addr : Word) : Option Fault :=
  if misaligned s.cfg w addr then some (.misalignedAccess addr kind s.currentAddr)
  else
    match reportedUnbacked? s.cfg w addr with
    | some b => some (.accessFault b kind s.currentAddr)
    | none => none

/-! ## Faults -/

/-- `raise <Fault>(info)` of 00_scope.md section 5.2: the machine stops with the fault and no state is changed (R115). REGULAR
has no other exception entry: no vector, no saved register, no handler and so no return from one (R110, R116). -/
def raise (f : Fault) : Out := .fault f

/-- A data access: the state after it when it is admitted, else its fault. All checks come before any effect (R33, R34). -/
def dataAccess (s : State) (kind : AccessKind) (w : Width) (addr : Word) (after : State) : Out :=
  match dataFault? s kind w addr with
  | some f => raise f
  | none => .next after

/-! ## Fetch and the instruction boundary -/

/-- `FetchWord(x[0])` (R35): the word, or the fault of the fetch. -/
def fetchWord (s : State) : Except Fault Word :=
  match fetchFault? s with
  | some f => .error f
  | none => .ok (s.wordAt s.pc)

/-- At an instruction boundary `x[0]` is in `END_ADDRS`: the run is over (R132). -/
def State.ended (s : State) : Bool := s.cfg.endAddrs.contains s.pc

/-! ## Placing an instruction where the next fetch reads -/

/-- The ranges that make an unbacked touched address backed; none for one that is backed. -/
def missingRegions (c : Config) (addr : Word) : List Region :=
  ((touched .word addr).filter (fun b => !Config.isBacked c b)).map (fun b => ⟨b, b⟩)

/-- `w` stands where the next fetch reads, and that fetch is admitted. Where `x[0]` is aligned, backed and no end address, as
after reset, only the four bytes at `x[0]` change. -/
def State.placeAtPc (s : State) (w : Word) : State :=
  { s.setWord s.pc w with
    cfg := { s.cfg with
      backed := missingRegions s.cfg s.pc ++ s.cfg.backed
      endAddrs := s.cfg.endAddrs.filter (fun e => e != s.pc)
      misalignedOk := s.cfg.misalignedOk || misaligned s.cfg .word s.pc } }

end Sys2Proof.Machine
end

