-- ==== Sys2Proof/Machine/Operands.lean ====
section
/-! DEFINITION. The operand forms of REGULAR: a register as a source, a register as the destination, the 16-bit immediate
(30_encoding.md R56) and register indirect, the one addressing mode (44_load_store.md, Addressing). Every source is read from
the state before the destination is written (10_state.md R26). -/

namespace Sys2Proof.Machine

/-- A register as a source: its current content, also for `r0`, which holds `a + 4` during execution (R12, R104). -/
def State.source (s : State) (r : Reg) : Word := s.reg r

/-- The operand value of a 16-bit immediate: `sext_32(imm16)`, not scaled and not shifted (R56). -/
def immediate (imm : Imm16) : Word := imm.signExtend 32

/-- The effective address of a load (`rB`) or a store (`rA`): the whole content of the register, with no offset and no update. -/
def State.effectiveAddr (s : State) (r : Reg) : Word := s.reg r

/-- The destination is written once, after every source was read (R26); writing `r0` transfers control (R100). -/
def writeDest (s : State) (rA : Reg) (v : Word) : Out := .next (s.setReg rA v)

/-- A destination that takes a result the spec may leave undefined: the result, or a free value (R82). -/
def writeDestOrAny (s : State) (rA : Reg) (result : Option Word) : Out :=
  match result with
  | some v => writeDest s rA v
  | none => writeDest s.countDraw rA s.anyWord

/-- Two register sources and a register destination: format `op rA rB rC`. -/
def binary (f : Word → Word → Word) (rA rB rC : Reg) (s : State) : Out := writeDest s rA (f (s.source rB) (s.source rC))

/-- Bits 7 to 0 replaced, bits 31 to 8 kept: the destination form of `ldb` (R97). -/
def mergeByte (old : Word) (b : Byte) : Word := old.extractLsb' 8 24 ++ b

end Sys2Proof.Machine
end

