-- ==== Sys2Proof/Machine/ArithLogic.lean ====
section
/-! DEFINITION. The meanings of `nop`, `add`, `sub`, `and`, `orr`, `xor` and `not` (40_nop_arith_logic.md R70 to R76). A meaning
is step 5 of the instruction step: `x[0]` already holds `a + 4` (10_state.md R25). -/

namespace Sys2Proof.Machine

/-- "Perform no operation." (R70) -/
def execNop (s : State) : Out := .next s

/-- `x[A] <- (x[B] + x[C]) mod 2^32`, the carry discarded (R71). -/
def execAdd (rA rB rC : Reg) (s : State) : Out := binary (fun x y => x + y) rA rB rC s

/-- `x[A] <- (x[B] - x[C]) mod 2^32`, the borrow discarded (R72). -/
def execSub (rA rB rC : Reg) (s : State) : Out := binary (fun x y => x - y) rA rB rC s

/-- `x[A] <- x[B] & x[C]`, bitwise (R73). -/
def execAnd (rA rB rC : Reg) (s : State) : Out := binary (fun x y => x &&& y) rA rB rC s

/-- `x[A] <- x[B] | x[C]`, bitwise (R74). -/
def execOrr (rA rB rC : Reg) (s : State) : Out := binary (fun x y => x ||| y) rA rB rC s

/-- `x[A] <- x[B] ^ x[C]`, bitwise (R75). -/
def execXor (rA rB rC : Reg) (s : State) : Out := binary (fun x y => x ^^^ y) rA rB rC s

/-- `x[A] <- ~x[B]`, bitwise (R76). -/
def execNot (rA rB : Reg) (s : State) : Out := writeDest s rA (~~~(s.source rB))

end Sys2Proof.Machine
end

