-- ==== Sys2Proof/Machine/Flags.lean ====
section
/-! DEFINITION. REGULAR has no status flags and no condition codes (10_state.md R17): no instruction writes a flag, and `add` and
`sub` discard carry and borrow. Its one condition computation is "the sign of the result" that `tcu` and `tcs` store in a general
register (42_compare.md R87). -/

namespace Sys2Proof.Machine

/-- The value stored for the sign of an exact difference: `SIGN_NEG`, `SIGN_ZERO` or `SIGN_POS` (R87). -/
def signWord (c : Config) (d : Int) : Word :=
  if d < 0 then c.signNeg else if d = 0 then c.signZero else c.signPos

/-- `unsigned(x) - unsigned(y)`, an exact integer (R85). -/
def unsignedDifference (x y : Word) : Int := (x.toNat : Int) - (y.toNat : Int)

/-- `signed(x) - signed(y)`, an exact integer, in two's complement (R86, 00_scope.md R4). -/
def signedDifference (x y : Word) : Int := x.toInt - y.toInt

end Sys2Proof.Machine
end

