-- ==== Sys2Proof/Machine/Compare.lean ====
section
/-! DEFINITION. The meanings of `tcu` and `tcs` (42_compare.md R85 to R87). -/

namespace Sys2Proof.Machine

/-- `x[A] <-` the sign of the exact unsigned difference (R85). -/
def execTcu (rA rB rC : Reg) (s : State) : Out :=
  binary (fun x y => signWord s.cfg (unsignedDifference x y)) rA rB rC s

/-- `x[A] <-` the sign of the exact signed difference (R86). -/
def execTcs (rA rB rC : Reg) (s : State) : Out :=
  binary (fun x y => signWord s.cfg (signedDifference x y)) rA rB rC s

end Sys2Proof.Machine
end

