-- ==== Sys2Proof/Machine/LoadStore.lean ====
section
/-! DEFINITION. The meanings of `ldw`, `stw`, `ldb` and `stb` (44_load_store.md R95 to R98). -/

namespace Sys2Proof.Machine

/-- `x[A] <- MemRead(x[B], 4)` (R95). -/
def execLdw (rA rB : Reg) (s : State) : Out :=
  dataAccess s .load .word (s.effectiveAddr rB) (s.setReg rA (s.wordAt (s.effectiveAddr rB)))

/-- `MemWrite(x[A], 4, x[B])` (R96). -/
def execStw (rA rB : Reg) (s : State) : Out :=
  dataAccess s .store .word (s.effectiveAddr rA) (s.setWord (s.effectiveAddr rA) (s.source rB))

/-- `x[A] <- x[A][31:8] ++ MemRead(x[B], 1)`: a merge, no extension (R97, conflict C1). -/
def execLdb (rA rB : Reg) (s : State) : Out :=
  dataAccess s .load .byte (s.effectiveAddr rB) (s.setReg rA (mergeByte (s.source rA) (s.byteAt (s.effectiveAddr rB))))

/-- `MemWrite(x[A], 1, x[B][7:0])` (R98). -/
def execStb (rA rB : Reg) (s : State) : Out :=
  dataAccess s .store .byte (s.effectiveAddr rA) (s.setByte (s.effectiveAddr rA) ((s.source rB).extractLsb' 0 8))

end Sys2Proof.Machine
end

