-- ==== Sys2Proof/Machine/Move.lean ====
section
/-! DEFINITION. The meanings of `set` and `mov` (43_move.md R90, R91). -/

namespace Sys2Proof.Machine

/-- `x[A] <- sext_32(imm)` (R90). -/
def execSet (rA : Reg) (imm : Imm16) (s : State) : Out := writeDest s rA (immediate imm)

/-- `x[A] <- x[B]` (R91). -/
def execMov (rA rB : Reg) (s : State) : Out := writeDest s rA (s.source rB)

end Sys2Proof.Machine
end

