-- ==== Sys2Proof/Machine/Shift.lean ====
section
/-! DEFINITION. The meanings of `lsh` and `ash` (41_shift.md R80 to R82). -/

namespace Sys2Proof.Machine

/-- `n = signed(x[C])`: the whole content, not reduced modulo 32 (R82). -/
def shiftAmount (v : Word) : Int := v.toInt

/-- A shift of `v` by `n`, to the left when `n` is positive and by `right` when it is negative; no value outside -31 to 31
(R80, R81, R82). -/
def shifted (right : Word → Nat → Word) (v : Word) (n : Int) : Option Word :=
  if 1 ≤ n ∧ n ≤ 31 then some (v <<< n.toNat)
  else if n = 0 then some v
  else if -31 ≤ n ∧ n ≤ -1 then some (right v (-n).toNat)
  else none

/-- `v >>u k`: the vacated bits are zeroed. -/
def shiftRightUnsigned (v : Word) (k : Nat) : Word := v >>> k

/-- `v >>s k`: the vacated bits are copies of bit 31 of `v`. -/
def shiftRightSigned (v : Word) (k : Nat) : Word := v.sshiftRight k

/-- The logical shift (R80); outside -31 to 31 a free value (R82). -/
def execLsh (rA rB rC : Reg) (s : State) : Out :=
  writeDestOrAny s rA (shifted shiftRightUnsigned (s.source rB) (shiftAmount (s.source rC)))

/-- The arithmetic shift (R81); outside -31 to 31 a free value (R82). -/
def execAsh (rA rB rC : Reg) (s : State) : Out :=
  writeDestOrAny s rA (shifted shiftRightSigned (s.source rB) (shiftAmount (s.source rC)))

end Sys2Proof.Machine
end

