-- ==== Sys2Proof/Machine/Step.lean ====
section
/-! DEFINITION. One instruction step, from an instruction boundary to the next (10_state.md R25). -/

namespace Sys2Proof.Machine

/-- The step of R25: the end of a run first (70_reset_and_hazards.md R132), then fetch, decode, `x[0] <- a + 4`, execute. -/
def step (s : State) : Host.Outcome State Fault Refusal :=
  if s.ended then .refused .runEnded
  else
    match fetchWord s with
    | .error f => raise f
    | .ok w =>
      match decode w with
      | .error _ => raise (.illegalInstruction w s.pc)
      | .ok i => exec i s.advancePc

/-- The state in which the next step fetches and runs the instruction of a table word, whatever state this one is: the word is
stored at `x[0]`, and `x[0]` is made fetchable where it is not. Log entry 3. -/
def State.withFetchWord (s : State) (nbits w : Nat) : State := s.placeAtPc (tableWord nbits w)

end Sys2Proof.Machine
end

