-- ==== Sys2Proof/Assembler.lean ====
section
/-! DEFINITION. The assembly the spec writes its examples in (30_encoding.md R62, R63, R64), from characters to an instruction:
not part of the machine (decision D25). There is no pseudo-instruction (R64). -/

namespace Sys2Proof

/-- An operand as it is written. -/
inductive AsmOperand where
  /-- `r0`, `r1` and so on, by its decimal number. -/
  | r (number : Nat)
  /-- The alias of `r0` (R63). -/
  | pc
  /-- The alias of `r31` (R63). -/
  | sp
  /-- A decimal or hexadecimal number. -/
  | number (v : Int)
deriving DecidableEq, Repr

/-- The register an operand names: 0 to 31, or an alias. -/
def AsmOperand.reg? : AsmOperand → Option Reg
  | .r n => if h : n < 32 then some ⟨n, h⟩ else none
  | .pc => some Reg.pc
  | .sp => some Reg.sp
  | .number _ => none

/-- The immediate an operand writes: -32768 to 65535, a value from 32768 on standing for its bit pattern (R62). -/
def AsmOperand.imm? : AsmOperand → Option Imm16
  | .number v => if -32768 ≤ v ∧ v ≤ 65535 then some (BitVec.ofInt 16 v) else none
  | .r _ | .pc | .sp => none

/-- `mnemonic rA rB rC`. -/
def asmABC (mk : Reg → Reg → Reg → Instr) (a b c : AsmOperand) : Option Instr :=
  match a.reg?, b.reg?, c.reg? with
  | some rA, some rB, some rC => some (mk rA rB rC)
  | _, _, _ => none

/-- `mnemonic rA rB`. -/
def asmAB (mk : Reg → Reg → Instr) (a b : AsmOperand) : Option Instr :=
  match a.reg?, b.reg? with
  | some rA, some rB => some (mk rA rB)
  | _, _ => none

/-- `mnemonic rA imm`. -/
def asmAImm (mk : Reg → Imm16 → Instr) (a v : AsmOperand) : Option Instr :=
  match a.reg?, v.imm? with
  | some rA, some imm => some (mk rA imm)
  | _, _ => none

/-- One line of assembly: the mnemonic and its operands in the source's order (R62). -/
def assemble (mnemonic : String) (operands : List AsmOperand) : Option Instr :=
  match operands with
  | [] => if mnemonic = "nop" then some .nop else none
  | [a, b, c] =>
    if mnemonic = "add" then asmABC .add a b c
    else if mnemonic = "sub" then asmABC .sub a b c
    else if mnemonic = "and" then asmABC .and a b c
    else if mnemonic = "orr" then asmABC .orr a b c
    else if mnemonic = "xor" then asmABC .xor a b c
    else if mnemonic = "lsh" then asmABC .lsh a b c
    else if mnemonic = "ash" then asmABC .ash a b c
    else if mnemonic = "tcu" then asmABC .tcu a b c
    else if mnemonic = "tcs" then asmABC .tcs a b c
    else none
  | [a, b] =>
    if mnemonic = "not" then asmAB .not a b
    else if mnemonic = "set" then asmAImm .set a b
    else if mnemonic = "mov" then asmAB .mov a b
    else if mnemonic = "ldw" then asmAB .ldw a b
    else if mnemonic = "stw" then asmAB .stw a b
    else if mnemonic = "ldb" then asmAB .ldb a b
    else if mnemonic = "stb" then asmAB .stb a b
    else none
  | _ => none

/-- The operands an instruction is written with, registers by number and the immediate as a signed number. -/
def Instr.asmOperands : Instr → List AsmOperand
  | .nop => []
  | .add rA rB rC | .sub rA rB rC | .and rA rB rC | .orr rA rB rC | .xor rA rB rC | .lsh rA rB rC | .ash rA rB rC
  | .tcu rA rB rC | .tcs rA rB rC => [.r rA.val, .r rB.val, .r rC.val]
  | .not rA rB | .mov rA rB | .ldw rA rB | .stw rA rB | .ldb rA rB | .stb rA rB => [.r rA.val, .r rB.val]
  | .set rA imm => [.r rA.val, .number imm.toInt]

/-! ## Reading a line of characters -/

/-- The value of a digit of the base, if it is one. -/
def digit? (base : Nat) (c : Char) : Option Nat :=
  let n := c.toNat
  let v := if 48 ≤ n ∧ n ≤ 57 then n - 48
    else if 97 ≤ n ∧ n ≤ 102 then n - 87
    else if 65 ≤ n ∧ n ≤ 70 then n - 55
    else base
  if v < base then some v else none

/-- The digits of a number that begins with `acc`. -/
def digitsFrom (base acc : Nat) : List Char → Option Nat
  | [] => some acc
  | c :: rest =>
    match digit? base c with
    | some v => digitsFrom base (acc * base + v) rest
    | none => none

/-- A number of one digit or more. -/
def digits? (base : Nat) : List Char → Option Nat
  | [] => none
  | c :: rest => digitsFrom base 0 (c :: rest)

/-- One operand: `pc`, `sp`, `r` and a decimal number, a decimal number with an optional `-`, or a hexadecimal one after `0x`
(R62, R63). -/
def operand? : List Char → Option AsmOperand
  | ['p', 'c'] => some .pc
  | ['s', 'p'] => some .sp
  | 'r' :: rest => (digits? 10 rest).map AsmOperand.r
  | '-' :: rest => (digits? 10 rest).map fun n => .number (-(n : Int))
  | '0' :: 'x' :: rest => (digits? 16 rest).map fun n => .number (n : Int)
  | cs => (digits? 10 cs).map fun n => .number (n : Int)

/-- All operands, if each is one. -/
def operands? : List (List Char) → Option (List AsmOperand)
  | [] => some []
  | w :: rest =>
    match operand? w, operands? rest with
    | some o, some os => some (o :: os)
    | _, _ => none

/-- What stands before the comment that `;` starts (R62). -/
def beforeComment (line : List Char) : List Char := line.takeWhile (fun c => c != ';')

/-- The words of a line, separated by spaces (R62); `word` holds the characters of the word being read, the last first. -/
def wordsFrom (word : List Char) : List Char → List (List Char)
  | [] => if word.isEmpty then [] else [word.reverse]
  | c :: rest =>
    if c = ' ' then if word.isEmpty then wordsFrom [] rest else word.reverse :: wordsFrom [] rest
    else wordsFrom (c :: word) rest

/-- A line of assembly as characters (R62, R63): the instruction it names, if it names one. -/
def assembleLine (line : List Char) : Option Instr :=
  match wordsFrom [] (beforeComment line) with
  | [] => none
  | mnemonic :: rest =>
    match operands? rest with
    | some os => assemble (String.ofList mnemonic) os
    | none => none

end Sys2Proof
end

