-- ==== Sys2Proof/Machine/Launch.lean ====
section
/-! DEFINITION. Reset for every choice of what the spec leaves open (10_state.md R22 to R24, 70_reset_and_hazards.md R130). -/

namespace Sys2Proof.Machine

/-- What a reset takes beside the parameters of `Config`: `ENTRY` and `IMAGE` (00_scope.md R3), and the contents the spec leaves
unspecified, one arbitrary value for each register and each byte (R23, R24). -/
structure Launch where
  /-- `ENTRY`. -/
  entry : Word
  /-- `IMAGE`: addresses and their bytes; an address is meant to stand once. -/
  image : List (Word × Byte)
  /-- What `r1` to `r31` happen to hold (R23); the content given for `r0` is not used. -/
  regs  : Vector Word 32
  /-- What backed memory outside `IMAGE` happens to hold (R24). -/
  rest  : List (Word × Byte)
deriving DecidableEq, Repr

/-- Place one byte where the address is backed: `IMAGE` is a map "from addresses in `MEM`" (R3), and memory holds bytes at the
addresses in `MEM` and at no others (R20). -/
def State.placeByte (s : State) (cell : Word × Byte) : State :=
  if Config.isBacked s.cfg cell.1 then s.setByte cell.1 cell.2 else s

/-- Place bytes one after another; a later one wins. -/
def State.placeBytes (s : State) (cells : List (Word × Byte)) : State := cells.foldl State.placeByte s

/-- The machine with nothing in memory yet. -/
def State.blank (c : Config) (regs : Vector Word 32) (entry : Word) : State where
  regs  := regs.set 0 entry
  mem   := []
  draws := 0
  cfg   := c

/-- Reset (R130): `x[0] = ENTRY`, the other registers and the rest of memory as they happen to be, memory as `IMAGE` where
`IMAGE` is defined. -/
def State.launch (c : Config) (l : Launch) : State :=
  ((State.blank c l.regs l.entry).placeBytes l.rest).placeBytes l.image

/-- The launch that `State.reset` is: the vectors' entry, no image, every open value 0 (log entries 3, 4, 5). -/
def Launch.vectors : Launch where
  entry := Config.vectorsEntry
  image := []
  regs  := Vector.replicate 32 Config.resetReg
  rest  := []

end Sys2Proof.Machine
end

