-- ==== Sys2Proof/Safety.lean ====
section
/-! DEFINITION. The words claims are made in: the parts of an outcome, frames, the invariant of the machine, and a run with its
condition (running, ended, faulted: 60_exceptions.md R115, R116, 70_reset_and_hazards.md R132). -/

namespace Sys2Proof.Machine

/-- The next state of an outcome, if it has one. -/
def nextOf : Out → Option State
  | .next s => some s
  | .fault _ => none
  | .refused _ => none

/-- The fault of an outcome, if it is one. -/
def faultOf : Out → Option Fault
  | .next _ => none
  | .fault f => some f
  | .refused _ => none

/-- Every register but `r` is as it was. -/
def State.SameRegsBut (r : Reg) (s t : State) : Prop := ∀ q : Reg, q ≠ r → t.reg q = s.reg q

/-- Every register is as it was. -/
def State.SameRegs (s t : State) : Prop := ∀ q : Reg, t.reg q = s.reg q

/-- Every byte of memory reads as it did. -/
def State.SameMem (s t : State) : Prop := ∀ a : Word, t.byteAt a = s.byteAt a

/-- Every byte of memory outside the `w` addresses from `addr` on reads as it did. -/
def State.SameMemOutside (w : Width) (addr : Word) (s t : State) : Prop :=
  ∀ a : Word, a ∉ touched w addr → t.byteAt a = s.byteAt a

/-- The parameters and the count of free values are as they were. -/
def State.SameRest (s t : State) : Prop := t.cfg = s.cfg ∧ t.draws = s.draws

/-- The next fetch is admitted, said without the model's own fault conditions: the run is not over (R132), `x[0]` is a multiple
of 4 unless `MISALIGNED_OK` (20_memory.md R37), and the four bytes from it on are backed (R31, R35). -/
abbrev State.Fetchable (s : State) : Prop :=
  s.pc ∉ s.cfg.endAddrs ∧ (s.cfg.misalignedOk = true ∨ s.pc.toNat % 4 = 0) ∧
    ∀ k : Nat, k < 4 → Config.isBacked s.cfg (s.pc + BitVec.ofNat 32 k) = true

/-- A word access at `addr` is aligned, or need not be (R36). -/
abbrev State.WordAligned (s : State) (addr : Word) : Prop := s.cfg.misalignedOk = true ∨ addr.toNat % 4 = 0

/-- The `n` bytes from `addr` on are backed (R31). -/
abbrev State.BackedFrom (s : State) (addr : Word) (n : Nat) : Prop :=
  ∀ k : Nat, k < n → Config.isBacked s.cfg (addr + BitVec.ofNat 32 k) = true

/-- The byte at offset `k` is not backed, and of the unbacked bytes of a word access at `addr` it is the first in access order
(R33, R34) and the lowest (R31): the two are one where the access does not wrap past the top of the address space. -/
abbrev State.Hole (s : State) (addr : Word) (k : Nat) : Prop :=
  s.BackedFrom addr k ∧ Config.isBacked s.cfg (addr + BitVec.ofNat 32 k) = false ∧
    ∀ j : Nat, j < 4 → Config.isBacked s.cfg (addr + BitVec.ofNat 32 j) = false →
      (addr + BitVec.ofNat 32 k).toNat ≤ (addr + BitVec.ofNat 32 j).toNat

/-- The unbacked byte that a fault of a word access at `addr` names, by the parameter `holeReport` (log entry 10). -/
abbrev State.ReportedHole (s : State) (addr b : Word) : Prop :=
  b ∈ touched .word addr ∧ Config.isBacked s.cfg b = false ∧
    (s.cfg.holeReport = .lowest → ∀ c ∈ touched .word addr, Config.isBacked s.cfg c = false → b.toNat ≤ c.toNat) ∧
    (s.cfg.holeReport = .firstInAccessOrder → ∃ k, k < 4 ∧ b = addr + BitVec.ofNat 32 k ∧ s.BackedFrom addr k)

/-- What a register reads as during execution of the instruction at `x[0]`: `a + 4` for `r0` (45_control_transfer.md R104). -/
def State.during (s : State) (r : Reg) : Word := if r = Reg.pc then s.pc + 4 else s.reg r

/-- The word at `x[0]` is an encoding of the instruction. -/
abbrev State.AtPc (s : State) (i : Instr) : Prop := decode (s.wordAt s.pc) = .ok i

/-- What a step keeps: memory is in its canonical form and lists no address outside `MEM` ("a total map from the addresses in
`MEM` to bytes", 10_state.md R20). -/
abbrev State.Inv (s : State) : Prop := s.mem.wf ∧ ∀ c ∈ s.mem, Config.isBacked s.cfg (BitVec.ofNat 32 c.1) = true

/-- The condition of a run. -/
inductive Condition where
  /-- At an instruction boundary, ready for the next step. -/
  | running
  /-- `x[0]` is in `END_ADDRS` (R132). -/
  | ended
  /-- A step raised this fault; the machine executes no further step and has not ended its run (R115). -/
  | faulted (f : Fault)
  /-- A step refused for a reason other than the end of the run; no instruction of this model does. -/
  | refused (r : Refusal)
deriving DecidableEq, Repr

/-- A run: the state and the condition. A faulted run keeps the state before the faulting step (R115, U15). -/
structure Run where
  state     : State
  condition : Condition
deriving DecidableEq, Repr

/-- A run right after reset: not faulted (R130). -/
def Run.start (s : State) : Run := ⟨s, .running⟩

/-- One more step of a run. A fault condition is never cleared but by a reset (R116), and an ended run steps no more (R132). -/
def Run.advance (r : Run) : Run :=
  match r.condition with
  | .running =>
    match step r.state with
    | .next s => ⟨s, .running⟩
    | .fault f => ⟨r.state, .faulted f⟩
    | .refused .runEnded => ⟨r.state, .ended⟩
    | .refused q => ⟨r.state, .refused q⟩
  | .ended => r
  | .faulted _ => r
  | .refused _ => r

/-- `k` more steps of a run. -/
def Run.advanceBy : Nat → Run → Run
  | 0, r => r
  | k + 1, r => Run.advanceBy k r.advance

/-- A faulting step is void: the run stops with the fault and the state it had before the step (R115). -/
def FaultVoidsTheStep : Prop := ∀ (s : State) (f : Fault), step s = .fault f → (Run.start s).advance = ⟨s, .faulted f⟩

/-- A run from `s` never faults: what a claim about a program has to prove (R115). -/
def NeverFaults (s : State) : Prop := ∀ k f, (Run.advanceBy k (Run.start s)).condition ≠ .faulted f

end Sys2Proof.Machine
end

