-- ==== Sys2Proof/WellFormed.lean ====
section
/-! DEFINITION. When the four bytes of an instruction word are an instruction (30_encoding.md R55, R58, R59), checked byte by
byte and not through the decoder. A term of `Instr` needs no check: its register numbers are below 32 and its immediate has
16 bits by their types, so every term is an instruction the encoding admits. -/

namespace Sys2Proof

/-- The format of the instruction an opcode selects, if it selects one (R58; `0x11` to `0xFF` select none: R59). -/
def Format.ofOpcode (op : Byte) : Option Format :=
  match op.toNat with
  | 0x00 => some .op
  | 0x01 | 0x02 | 0x03 | 0x04 | 0x05 => some .opABC
  | 0x06 => some .opAB
  | 0x07 | 0x08 | 0x09 | 0x0A => some .opABC
  | 0x0B => some .opAImm
  | 0x0C | 0x0D | 0x0E | 0x0F | 0x10 => some .opAB
  | _ => none

/-- Whether a format has register field `A` (R53). -/
def Format.usesA : Format → Bool
  | .op => false
  | .opA | .opAImm | .opAB | .opABImm | .opABC => true

/-- Whether a format has register field `B` (R53). -/
def Format.usesB : Format → Bool
  | .op | .opA | .opAImm => false
  | .opAB | .opABImm | .opABC => true

/-- Whether a format has register field `C` (R53). -/
def Format.usesC : Format → Bool
  | .op | .opA | .opAImm | .opAB | .opABImm => false
  | .opABC => true

/-- The opcode is one of the 17 (R59). -/
def Fields.opcodeAssigned (f : Fields) : Bool := (Format.ofOpcode f.op).isSome

/-- A field that the format uses, as `uses` says, names a register (R55). -/
def Fields.registerOk (f : Fields) (uses : Format → Bool) (number : Byte) : Bool :=
  match Format.ofOpcode f.op with
  | none => true
  | some fmt => !uses fmt || decide (number.toNat < 32)

/-- The four bytes are an instruction: the opcode is assigned and every used register field is below 32 (R65). -/
def Fields.wellFormed (f : Fields) : Bool :=
  f.opcodeAssigned && f.registerOk Format.usesA f.A && f.registerOk Format.usesB f.B && f.registerOk Format.usesC f.C

end Sys2Proof
end

