-- ==== Sys2Proof/Certificates/Slice0/Obligations.lean ====
section
/-! DEFINITION. The statements for the provers. `exec` is step 5 of the instruction step: the state it is given already has
`x[0] = a + 4`, so `s.pc - 4` is `a` there (log entry 9). `State.Fetchable`, `State.WordAligned`, `State.BackedFrom`,
`State.Hole`, `State.ReportedHole`, `State.during`, `State.AtPc`, the frames and the runs are defined in Safety.lean. -/

open Sys2Proof Sys2Proof.Machine

/-! ## Encoding -/

/-- Decoding an encoded instruction gives it back, as a word and as bytes with more bytes behind them. -/
def Obligations.DecodeOfEncodeIsTheInstruction : Prop :=
  ∀ i : Instr, decode (encode i) = .ok i ∧ ∀ rest : List Byte, decodeBytes (encodeBytes i ++ rest) = .ok (i, rest)

/-- A word is an instruction exactly when it is that instruction's encoding in the bits its format uses. The spec's own decisions:
D10 (ignored bits have no effect), D8 and D9 (an unassigned opcode and a used register field of 32 or more make no instruction;
log entries 15, 17). -/
def Obligations.WordDecodesIffItsUsedBitsAreTheEncoding : Prop :=
  ∀ (w : Word) (i : Instr), decode w = .ok i ↔ w &&& i.usedBits = encode i

/-- The decoder and the opcode map of 30_encoding.md section 4 agree: a word is an instruction exactly when a row admits it, and
then it is that row's. The register masks are the spec's own decision D9. -/
def Obligations.DecoderAgreesWithTheOpcodeMap : Prop :=
  (∀ w : Word, (∃ i, decode w = .ok i) ↔ ∃ row ∈ opcodeTable, row.admits w = true) ∧
  ∀ (w : Word) (i : Instr), decode w = .ok i →
    ∀ row ∈ opcodeTable, (row.admits w = true ↔ row.mnemonic = i.mnemonic)

/-- Which words are refused and by which name: unassigned opcodes (decision D8), then a used register field above 31 (decision
D9); and every word that WellFormed.lean accepts is decoded. That the first such field is the one reported, and the names, are
the model's own choice (log entry 15). -/
def Obligations.IllegalWordsAreRefusedByName : Prop :=
  ∀ w : Word,
    ((∃ i, decode w = .ok i) ↔ (Fields.ofWord w).wellFormed = true) ∧
    ((w.extractLsb' 0 8).toNat > 0x10 → decode w = .error (.unassignedOpcode (w.extractLsb' 0 8))) ∧
    ∀ fmt, Format.ofOpcode (w.extractLsb' 0 8) = some fmt →
      (fmt.usesA = true → (w.extractLsb' 8 8).toNat ≥ 32 → decode w = .error (.noSuchRegister .fieldA (w.extractLsb' 8 8))) ∧
      (fmt.usesB = true → (w.extractLsb' 8 8).toNat < 32 → (w.extractLsb' 16 8).toNat ≥ 32 →
        decode w = .error (.noSuchRegister .fieldB (w.extractLsb' 16 8))) ∧
      (fmt.usesC = true → (w.extractLsb' 8 8).toNat < 32 → (w.extractLsb' 16 8).toNat < 32 →
        (w.extractLsb' 24 8).toNat ≥ 32 → decode w = .error (.noSuchRegister .fieldC (w.extractLsb' 24 8)))

/-- Words written out from the formats decode to what they stand for, one of each family (vectors EN2, EN3, EN6, EN9, EN13, EN14,
EN15, EN18, and SH1). -/
def Obligations.WordsWrittenFromTheFormatsDecode : Prop :=
  decode 0xABCDEF00 = .ok .nop ∧ decode 0x03020101 = .ok (.add 1 2 3) ∧ decode 0x00020106 = .ok (.not 1 2) ∧
  decode 0x03020107 = .ok (.lsh 1 2 3) ∧ decode 0x0302010A = .ok (.tcs 1 2 3) ∧
  decode 0xFFEC040B = .ok (.set 4 (BitVec.ofInt 16 (-20))) ∧ decode 0x000A000C = .ok (.mov 0 10) ∧
  decode 0x0001080D = .ok (.ldw 8 1) ∧ decode 0x00050710 = .ok (.stb 7 5)

/-- R51: where each field stands in a word, read and written, and the words of the instructions of file 40 (those of the others
stand in their own statements). The opcodes are R58's. -/
def Obligations.FieldsStandAtTheirBits : Prop :=
  (∀ w : Word,
    (Fields.ofWord w).op.toNat = w.toNat % 2 ^ 8 ∧ (Fields.ofWord w).A.toNat = w.toNat / 2 ^ 8 % 2 ^ 8 ∧
    (Fields.ofWord w).B.toNat = w.toNat / 2 ^ 16 % 2 ^ 8 ∧ (Fields.ofWord w).C.toNat = w.toNat / 2 ^ 24 ∧
    (Fields.ofWord w).imm16.toNat = w.toNat / 2 ^ 16 ∧ (Fields.ofWord w).toWord = w) ∧
  (∀ f : Fields, f.toWord.toNat = f.op.toNat + 2 ^ 8 * f.A.toNat + 2 ^ 16 * f.B.toNat + 2 ^ 24 * f.C.toNat) ∧
  ∀ rA rB rC : Reg,
    (encode .nop).toNat = 0x00 ∧
    (encode (.add rA rB rC)).toNat = 0x01 + 2 ^ 8 * rA.val + 2 ^ 16 * rB.val + 2 ^ 24 * rC.val ∧
    (encode (.sub rA rB rC)).toNat = 0x02 + 2 ^ 8 * rA.val + 2 ^ 16 * rB.val + 2 ^ 24 * rC.val ∧
    (encode (.and rA rB rC)).toNat = 0x03 + 2 ^ 8 * rA.val + 2 ^ 16 * rB.val + 2 ^ 24 * rC.val ∧
    (encode (.orr rA rB rC)).toNat = 0x04 + 2 ^ 8 * rA.val + 2 ^ 16 * rB.val + 2 ^ 24 * rC.val ∧
    (encode (.xor rA rB rC)).toNat = 0x05 + 2 ^ 8 * rA.val + 2 ^ 16 * rB.val + 2 ^ 24 * rC.val ∧
    (encode (.not rA rB)).toNat = 0x06 + 2 ^ 8 * rA.val + 2 ^ 16 * rB.val

/-- An instruction's own assembly assembles to it; a value from 32768 on stands for its bit pattern; `pc` and `sp` are `r0` and
`r31`. Assembly is the spec's own decision D25 (log entry 27). -/
def Obligations.AssemblyNamesTheInstruction : Prop :=
  (∀ i : Instr, assemble i.mnemonic i.asmOperands = some i) ∧
  (∀ (n : Nat) (v : Int), 32768 ≤ v → v ≤ 65535 →
    assemble "set" [.r n, .number v] = assemble "set" [.r n, .number (v - 65536)]) ∧
  ∀ o : AsmOperand, assemble "mov" [.pc, o] = assemble "mov" [.r 0, o] ∧ assemble "mov" [.sp, o] = assemble "mov" [.r 31, o]

/-! ## The step -/

/-- A step runs the instruction whose encoding stands at `x[0]`, on the state in which `x[0]` is `a + 4` (mod 2^32) and nothing
else is changed. The step of 4 and the wrap are decisions D2 and D4, the order of the update D3. -/
def Obligations.StepRunsTheDecodedInstruction : Prop :=
  ∀ (s : State) (i : Instr), s.Fetchable → s.AtPc i →
    step s = exec i s.advancePc ∧ (s.advancePc.pc).toNat = (s.pc.toNat + 4) % 2 ^ 32 ∧
    State.SameRegsBut Reg.pc s s.advancePc ∧ State.SameMem s s.advancePc ∧ State.SameRest s s.advancePc

/-- The faults of fetch and decode, in the order of the step (decisions D5, D7, D8, D9, D24), each with the information it
records. Which of several unbacked bytes is named is said where the spec's two answers agree (`State.Hole`); where a fetch wraps
past the top of the address space they may differ (log entry 10), and then only that it is one of them. -/
def Obligations.FetchAndDecodeFaultInOrder : Prop :=
  ∀ s : State, s.pc ∉ s.cfg.endAddrs →
    (s.cfg.misalignedOk = false → s.pc.toNat % 4 ≠ 0 → step s = .fault (.misalignedFetch s.pc)) ∧
    (s.WordAligned s.pc → ¬ s.BackedFrom s.pc 4 →
      ∃ b ∈ touched .word s.pc, Config.isBacked s.cfg b = false ∧ step s = .fault (.accessFault b .fetch s.pc)) ∧
    (s.WordAligned s.pc → ∀ k, k < 4 → s.Hole s.pc k →
      step s = .fault (.accessFault (s.pc + BitVec.ofNat 32 k) .fetch s.pc)) ∧
    (s.WordAligned s.pc → s.BackedFrom s.pc 4 → (∀ i, ¬ s.AtPc i) →
      step s = .fault (.illegalInstruction (s.wordAt s.pc) s.pc))

/-- A run is over exactly when `x[0]` is in `END_ADDRS`: no step happens, and the final state is the one reached. The spec's own
decision D20; that no step happens is said by the refusal runEnded, the model's choice (log entry 8). -/
def Obligations.RunEndsExactlyAtAnEndAddress : Prop :=
  ∀ s : State,
    (s.pc ∈ s.cfg.endAddrs ↔ ∃ r, step s = .refused r) ∧
    (s.pc ∈ s.cfg.endAddrs → ∀ k, Run.advanceBy (k + 1) (Run.start s) = ⟨s, .ended⟩)

/-- A fault voids its step and stops the machine for good: the run keeps the state before the step, with the fault recorded. The
spec's own decision D16. -/
def Obligations.FaultStopsTheRunAndKeepsItsState : Prop :=
  ∀ (s : State) (f : Fault), step s = .fault f → ∀ k, Run.advanceBy (k + 1) (Run.start s) = ⟨s, .faulted f⟩

/-- Which instruction can raise which fault, and that 13 of the 17 always go on. Derived in 60_exceptions.md section 1 from its
list of faults. -/
def Obligations.OnlyLoadsAndStoresFaultInExecution : Prop :=
  (∀ (i : Instr) (s : State), (∃ t, exec i s = .next t) ∨ (∃ f, exec i s = .fault f)) ∧
  ∀ (i : Instr) (s : State) (f : Fault), exec i s = .fault f →
    (∃ rA rB, i = .ldw rA rB ∧ (f = .misalignedAccess (s.reg rB) .load (s.pc - 4) ∨
      ∃ b ∈ touched .word (s.reg rB), Config.isBacked s.cfg b = false ∧ f = .accessFault b .load (s.pc - 4))) ∨
    (∃ rA rB, i = .stw rA rB ∧ (f = .misalignedAccess (s.reg rA) .store (s.pc - 4) ∨
      ∃ b ∈ touched .word (s.reg rA), Config.isBacked s.cfg b = false ∧ f = .accessFault b .store (s.pc - 4))) ∨
    (∃ rA rB, i = .ldb rA rB ∧ f = .accessFault (s.reg rB) .load (s.pc - 4)) ∨
    (∃ rA rB, i = .stb rA rB ∧ f = .accessFault (s.reg rA) .store (s.pc - 4))

/-- The host's placed word is what the next step runs, from any state; registers keep their contents, and so does every byte
outside the four at `x[0]`. The model's own helper (log entry 3). -/
def Obligations.PlacedWordIsWhatTheNextStepRuns : Prop :=
  ∀ (s : State) (nbits w : Nat) (i : Instr), decodeTableWord nbits w = some i →
    step (s.withFetchWord nbits w) = exec i (s.withFetchWord nbits w).advancePc ∧
    State.SameRegs s (s.withFetchWord nbits w) ∧ State.SameMemOutside .word s.pc s (s.withFetchWord nbits w) ∧
    (s.Fetchable → (s.withFetchWord nbits w).cfg = s.cfg)

/-! ## What each instruction does -/

/-- R70: `nop` changes nothing but what every step changes, and every word whose low byte is 0 is `nop`. -/
def Obligations.NopChangesOnlyThePc : Prop :=
  encode .nop = 0x00000000 ∧ (∀ w : Word, w.extractLsb' 0 8 = 0 → decode w = .ok .nop) ∧
  (∀ s : State, exec .nop s = .next s) ∧
  ∀ s : State, s.Fetchable → s.AtPc .nop →
    ∃ t, step s = .next t ∧ t.pc = s.pc + 4 ∧ State.SameRegsBut Reg.pc s t ∧ State.SameMem s t ∧ State.SameRest s t

/-- `add` is modulo 2^32 whatever the registers are, and changes nothing but `rA` (the discarded carry is decision D14). -/
def Obligations.AddIsTheSumModulo2To32 : Prop :=
  ∀ (s : State) (rA rB rC : Reg), ∃ t, exec (.add rA rB rC) s = .next t ∧
    (t.reg rA).toNat = ((s.reg rB).toNat + (s.reg rC).toNat) % 2 ^ 32 ∧
    State.SameRegsBut rA s t ∧ State.SameMem s t ∧ State.SameRest s t

/-- `sub` subtracts `rC` from `rB` modulo 2^32 and changes nothing but `rA` (the discarded borrow is decision D14). -/
def Obligations.SubIsTheDifferenceModulo2To32 : Prop :=
  ∀ (s : State) (rA rB rC : Reg), ∃ t, exec (.sub rA rB rC) s = .next t ∧
    ((t.reg rA).toNat : Int) = (((s.reg rB).toNat : Int) - ((s.reg rC).toNat : Int)) % 2 ^ 32 ∧
    State.SameRegsBut rA s t ∧ State.SameMem s t ∧ State.SameRest s t

/-- `and`, `orr` and `xor` work on each of the 32 bits and change nothing but `rA` (bitwise is decision D29). -/
def Obligations.AndOrrXorWorkBitByBit : Prop :=
  ∀ (s : State) (rA rB rC : Reg),
    (∃ t, exec (.and rA rB rC) s = .next t ∧
      (∀ k : Nat, k < 32 → (t.reg rA).getLsbD k = ((s.reg rB).getLsbD k && (s.reg rC).getLsbD k)) ∧
      State.SameRegsBut rA s t ∧ State.SameMem s t ∧ State.SameRest s t) ∧
    (∃ t, exec (.orr rA rB rC) s = .next t ∧
      (∀ k : Nat, k < 32 → (t.reg rA).getLsbD k = ((s.reg rB).getLsbD k || (s.reg rC).getLsbD k)) ∧
      State.SameRegsBut rA s t ∧ State.SameMem s t ∧ State.SameRest s t) ∧
    (∃ t, exec (.xor rA rB rC) s = .next t ∧
      (∀ k : Nat, k < 32 → (t.reg rA).getLsbD k = ((s.reg rB).getLsbD k ^^ (s.reg rC).getLsbD k)) ∧
      State.SameRegsBut rA s t ∧ State.SameMem s t ∧ State.SameRest s t)

/-- `not` complements each of the 32 bits, which is `0xFFFFFFFF - x[B]`, and changes nothing but `rA` (bitwise is D29). -/
def Obligations.NotComplementsEveryBit : Prop :=
  ∀ (s : State) (rA rB : Reg), ∃ t, exec (.not rA rB) s = .next t ∧
    (∀ k : Nat, k < 32 → (t.reg rA).getLsbD k = !(s.reg rB).getLsbD k) ∧
    (t.reg rA).toNat = 0xFFFFFFFF - (s.reg rB).toNat ∧
    State.SameRegsBut rA s t ∧ State.SameMem s t ∧ State.SameRest s t

/-- R80: `lsh` by a signed amount. It always goes on; outside -31 to 31 this statement says nothing of the value in `rA`. The
amount 0, which the source's two clauses skip, leaves `rB` as it is (the spec's own decision D13, in R80's pseudocode). -/
def Obligations.LshShiftsByTheSignedAmount : Prop :=
  ∀ (s : State) (rA rB rC : Reg),
    (encode (.lsh rA rB rC)).toNat = 0x07 + 2 ^ 8 * rA.val + 2 ^ 16 * rB.val + 2 ^ 24 * rC.val ∧
    ∃ t, exec (.lsh rA rB rC) s = .next t ∧
      (∀ n : Int, n = (s.reg rC).toInt →
        (1 ≤ n → n ≤ 31 → (t.reg rA).toNat = (s.reg rB).toNat * 2 ^ n.toNat % 2 ^ 32) ∧
        (n = 0 → t.reg rA = s.reg rB) ∧
        (-31 ≤ n → n ≤ -1 → (t.reg rA).toNat = (s.reg rB).toNat / 2 ^ (-n).toNat)) ∧
      State.SameRegsBut rA s t ∧ State.SameMem s t ∧ t.cfg = s.cfg

/-- R81: `ash` by a signed amount: to the right it is the floor of the signed quotient, whose vacated bits copy bit 31. It always
goes on; outside -31 to 31 this statement says nothing of the value in `rA`. The amount 0 is as in `lsh` (D13). -/
def Obligations.AshShiftsByTheSignedAmount : Prop :=
  ∀ (s : State) (rA rB rC : Reg),
    (encode (.ash rA rB rC)).toNat = 0x08 + 2 ^ 8 * rA.val + 2 ^ 16 * rB.val + 2 ^ 24 * rC.val ∧
    ∃ t, exec (.ash rA rB rC) s = .next t ∧
      (∀ n : Int, n = (s.reg rC).toInt →
        (1 ≤ n → n ≤ 31 → (t.reg rA).toNat = (s.reg rB).toNat * 2 ^ n.toNat % 2 ^ 32) ∧
        (n = 0 → t.reg rA = s.reg rB) ∧
        (-31 ≤ n → n ≤ -1 → (t.reg rA).toInt = (s.reg rB).toInt / 2 ^ (-n).toNat ∧
          ∀ k : Nat, 32 - (-n).toNat ≤ k → k < 32 → (t.reg rA).getLsbD k = (s.reg rB).getLsbD 31)) ∧
      State.SameRegsBut rA s t ∧ State.SameMem s t ∧ t.cfg = s.cfg

/-- Outside -31 to 31, `lsh` and `ash` complete with a free value in `rA`, the next draw, and nothing else but the count of draws
changes (decision D12; the counter and the opaque constant are the model's form: log entries 6, 7). Inside, no draw is made. -/
def Obligations.ShiftsOutOfRangeTakeTheNextFreeValue : Prop :=
  ∀ (s : State) (i : Instr) (rA rB rC : Reg), i = .lsh rA rB rC ∨ i = .ash rA rB rC →
    ((s.reg rC).toInt ≤ -32 ∨ 32 ≤ (s.reg rC).toInt →
      ∃ t, exec i s = .next t ∧ t.reg rA = Config.freeWord s.draws ∧ t.draws = s.draws + 1 ∧
        State.SameRegsBut rA s t ∧ State.SameMem s t ∧ t.cfg = s.cfg) ∧
    (-31 ≤ (s.reg rC).toInt → (s.reg rC).toInt ≤ 31 → ∃ t, exec i s = .next t ∧ t.draws = s.draws)

/-- The count of draws rises by exactly one in a step that runs a shift by an amount outside -31 to 31, whose result is the draw
counted, and stays as it is in every other step (the amount as the shift reads it: `a + 4` if it stands in `r0`). That the result
is open is decision D12; the counter is the model's own (log entries 6, 7). -/
def Obligations.OnlyShiftsOutOfRangeDraw : Prop :=
  ∀ s t : State, step s = .next t →
    (∀ rA rB rC, s.AtPc (.lsh rA rB rC) ∨ s.AtPc (.ash rA rB rC) →
      (s.during rC).toInt ≤ -32 ∨ 32 ≤ (s.during rC).toInt →
        t.draws = s.draws + 1 ∧ t.reg rA = Config.freeWord s.draws) ∧
    ((∀ rA rB rC, s.AtPc (.lsh rA rB rC) ∨ s.AtPc (.ash rA rB rC) →
      -31 ≤ (s.during rC).toInt ∧ (s.during rC).toInt ≤ 31) → t.draws = s.draws)

/-- R85: `tcu` stores the sign of the exact unsigned difference, as one of the three parameters, whatever they are. -/
def Obligations.TcuStoresTheSignOfTheUnsignedDifference : Prop :=
  ∀ (s : State) (rA rB rC : Reg),
    (encode (.tcu rA rB rC)).toNat = 0x09 + 2 ^ 8 * rA.val + 2 ^ 16 * rB.val + 2 ^ 24 * rC.val ∧
    ∃ t, exec (.tcu rA rB rC) s = .next t ∧
      ((s.reg rB).toNat < (s.reg rC).toNat → t.reg rA = s.cfg.signNeg) ∧
      ((s.reg rB).toNat = (s.reg rC).toNat → t.reg rA = s.cfg.signZero) ∧
      ((s.reg rB).toNat > (s.reg rC).toNat → t.reg rA = s.cfg.signPos) ∧
      State.SameRegsBut rA s t ∧ State.SameMem s t ∧ State.SameRest s t

/-- R86: `tcs` stores the sign of the exact signed difference, as one of the three parameters, whatever they are. -/
def Obligations.TcsStoresTheSignOfTheSignedDifference : Prop :=
  ∀ (s : State) (rA rB rC : Reg),
    (encode (.tcs rA rB rC)).toNat = 0x0A + 2 ^ 8 * rA.val + 2 ^ 16 * rB.val + 2 ^ 24 * rC.val ∧
    ∃ t, exec (.tcs rA rB rC) s = .next t ∧
      ((s.reg rB).toInt < (s.reg rC).toInt → t.reg rA = s.cfg.signNeg) ∧
      ((s.reg rB).toInt = (s.reg rC).toInt → t.reg rA = s.cfg.signZero) ∧
      ((s.reg rB).toInt > (s.reg rC).toInt → t.reg rA = s.cfg.signPos) ∧
      State.SameRegsBut rA s t ∧ State.SameMem s t ∧ State.SameRest s t

/-- With the default sign values the two comparisons store -1, 0 or +1, the signum of the exact difference. The values are the
spec's own decision D11 (log entry 16). -/
def Obligations.DefaultSignsAreTheSignum : Prop :=
  ∀ (s : State) (rA rB rC : Reg),
    s.cfg.signNeg = Config.vectors.signNeg → s.cfg.signZero = Config.vectors.signZero →
    s.cfg.signPos = Config.vectors.signPos →
    (∃ t, exec (.tcu rA rB rC) s = .next t ∧
      (t.reg rA).toInt = (((s.reg rB).toNat : Int) - ((s.reg rC).toNat : Int)).sign) ∧
    (∃ t, exec (.tcs rA rB rC) s = .next t ∧ (t.reg rA).toInt = ((s.reg rB).toInt - (s.reg rC).toInt).sign)

/-- R90: `set` stores its immediate with sign extension. -/
def Obligations.SetStoresTheSignExtendedImmediate : Prop :=
  ∀ (s : State) (rA : Reg) (imm : Imm16),
    (encode (.set rA imm)).toNat = 0x0B + 2 ^ 8 * rA.val + 2 ^ 16 * imm.toNat ∧
    ∃ t, exec (.set rA imm) s = .next t ∧ (t.reg rA).toInt = imm.toInt ∧
      (∀ k : Nat, k < 16 → (t.reg rA).getLsbD k = imm.getLsbD k) ∧
      (∀ k : Nat, 16 ≤ k → k < 32 → (t.reg rA).getLsbD k = imm.getLsbD 15) ∧
      State.SameRegsBut rA s t ∧ State.SameMem s t ∧ State.SameRest s t

/-- R91: `mov` copies, and `rB` keeps its value. -/
def Obligations.MovCopiesTheRegister : Prop :=
  ∀ (s : State) (rA rB : Reg),
    (encode (.mov rA rB)).toNat = 0x0C + 2 ^ 8 * rA.val + 2 ^ 16 * rB.val ∧
    (∀ w : Word, w &&& 0x00FFFFFF = encode (.mov rA rB) → decode w = .ok (.mov rA rB)) ∧
    ∃ t, exec (.mov rA rB) s = .next t ∧ t.reg rA = s.reg rB ∧ t.reg rB = s.reg rB ∧
      State.SameRegsBut rA s t ∧ State.SameMem s t ∧ State.SameRest s t

/-- R95: `ldw`, its two faults in their order, and that a fault leaves everything as it was before the step. The faults are the
spec's own decisions D5, D6 and D16, which R95 takes in. Which unbacked byte is named is said where the spec's answers agree
(`State.Hole`); it says nothing of the choice of log entry 10. -/
def Obligations.LdwLoadsAWord : Prop :=
  FaultVoidsTheStep ∧
  ∀ (s : State) (rA rB : Reg),
    (encode (.ldw rA rB)).toNat = 0x0D + 2 ^ 8 * rA.val + 2 ^ 16 * rB.val ∧
    (s.cfg.misalignedOk = false → (s.reg rB).toNat % 4 ≠ 0 →
      exec (.ldw rA rB) s = .fault (.misalignedAccess (s.reg rB) .load (s.pc - 4))) ∧
    (s.WordAligned (s.reg rB) → ¬ s.BackedFrom (s.reg rB) 4 →
      ∃ b ∈ touched .word (s.reg rB), Config.isBacked s.cfg b = false ∧
        exec (.ldw rA rB) s = .fault (.accessFault b .load (s.pc - 4))) ∧
    (s.WordAligned (s.reg rB) → ∀ k, k < 4 → s.Hole (s.reg rB) k →
      exec (.ldw rA rB) s = .fault (.accessFault (s.reg rB + BitVec.ofNat 32 k) .load (s.pc - 4))) ∧
    (s.WordAligned (s.reg rB) → s.BackedFrom (s.reg rB) 4 →
      ∃ t, exec (.ldw rA rB) s = .next t ∧
        (t.reg rA).extractLsb' 0 8 = s.byteAt (s.reg rB) ∧ (t.reg rA).extractLsb' 8 8 = s.byteAt (s.reg rB + 1) ∧
        (t.reg rA).extractLsb' 16 8 = s.byteAt (s.reg rB + 2) ∧ (t.reg rA).extractLsb' 24 8 = s.byteAt (s.reg rB + 3) ∧
        State.SameRegsBut rA s t ∧ State.SameMem s t ∧ State.SameRest s t)

/-- R96: `stw`, its two faults in their order, and that a fault leaves everything as it was before the step. The faults are the
spec's own decisions D5, D6 and D16, which R96 takes in. Which unbacked byte is named is said where the spec's answers agree
(`State.Hole`); it says nothing of the choice of log entry 10. -/
def Obligations.StwStoresAWord : Prop :=
  FaultVoidsTheStep ∧
  ∀ (s : State) (rA rB : Reg),
    (encode (.stw rA rB)).toNat = 0x0E + 2 ^ 8 * rA.val + 2 ^ 16 * rB.val ∧
    (s.cfg.misalignedOk = false → (s.effectiveAddr rA).toNat % 4 ≠ 0 →
      exec (.stw rA rB) s = .fault (.misalignedAccess (s.effectiveAddr rA) .store (s.pc - 4))) ∧
    (s.WordAligned (s.effectiveAddr rA) → ¬ s.BackedFrom (s.effectiveAddr rA) 4 →
      ∃ b ∈ touched .word (s.effectiveAddr rA), Config.isBacked s.cfg b = false ∧
        exec (.stw rA rB) s = .fault (.accessFault b .store (s.pc - 4))) ∧
    (s.WordAligned (s.effectiveAddr rA) → ∀ k, k < 4 → s.Hole (s.effectiveAddr rA) k →
      exec (.stw rA rB) s = .fault (.accessFault (s.effectiveAddr rA + BitVec.ofNat 32 k) .store (s.pc - 4))) ∧
    (s.WordAligned (s.effectiveAddr rA) → s.BackedFrom (s.effectiveAddr rA) 4 →
      ∃ t, exec (.stw rA rB) s = .next t ∧
        t.byteAt (s.effectiveAddr rA) = (s.reg rB).extractLsb' 0 8 ∧
        t.byteAt (s.effectiveAddr rA + 1) = (s.reg rB).extractLsb' 8 8 ∧
        t.byteAt (s.effectiveAddr rA + 2) = (s.reg rB).extractLsb' 16 8 ∧
        t.byteAt (s.effectiveAddr rA + 3) = (s.reg rB).extractLsb' 24 8 ∧
        State.SameMemOutside .word (s.effectiveAddr rA) s t ∧ State.SameRegs s t ∧ State.SameRest s t)

/-- R97: `ldb` replaces bits 7 to 0 and keeps bits 31 to 8, has no alignment, and faults only for an unbacked address
(decision D5, which R97 takes in); a fault voids its step (decision D16, log entry 22). -/
def Obligations.LdbMergesAByte : Prop :=
  FaultVoidsTheStep ∧
  ∀ (s : State) (rA rB : Reg),
    (encode (.ldb rA rB)).toNat = 0x0F + 2 ^ 8 * rA.val + 2 ^ 16 * rB.val ∧
    (Config.isBacked s.cfg (s.reg rB) = false →
      exec (.ldb rA rB) s = .fault (.accessFault (s.reg rB) .load (s.pc - 4))) ∧
    (Config.isBacked s.cfg (s.reg rB) = true →
      ∃ t, exec (.ldb rA rB) s = .next t ∧ (t.reg rA).extractLsb' 0 8 = s.byteAt (s.reg rB) ∧
        (t.reg rA).extractLsb' 8 24 = (s.reg rA).extractLsb' 8 24 ∧
        State.SameRegsBut rA s t ∧ State.SameMem s t ∧ State.SameRest s t)

/-- R98: `stb` changes exactly one byte of memory and no register, has no alignment, and faults only for an unbacked
address (decision D5, which R98 takes in); a fault voids its step (decision D16, log entry 22). -/
def Obligations.StbStoresAByte : Prop :=
  FaultVoidsTheStep ∧
  ∀ (s : State) (rA rB : Reg),
    (encode (.stb rA rB)).toNat = 0x10 + 2 ^ 8 * rA.val + 2 ^ 16 * rB.val ∧
    (Config.isBacked s.cfg (s.effectiveAddr rA) = false →
      exec (.stb rA rB) s = .fault (.accessFault (s.effectiveAddr rA) .store (s.pc - 4))) ∧
    (Config.isBacked s.cfg (s.effectiveAddr rA) = true →
      ∃ t, exec (.stb rA rB) s = .next t ∧ t.byteAt (s.effectiveAddr rA) = (s.reg rB).extractLsb' 0 8 ∧
        State.SameMemOutside .byte (s.effectiveAddr rA) s t ∧ State.SameRegs s t ∧ State.SameRest s t)

/-! ## Control transfer -/

/-- R100: an instruction transfers control exactly by writing `r0`: what stands in `r0` after a step is where the next
instruction is fetched, an instruction with another destination or none leaves `a + 4` there, and every other register keeps its
value but the destination; 14 instructions have a destination, which is field `A`. -/
def Obligations.ControlTransfersOnlyByWritingThePc : Prop :=
  (∀ s t : State, step s = .next t →
    ∃ i, s.AtPc i ∧ (i.dest? ≠ some Reg.pc → t.pc = s.pc + 4) ∧
      (∀ q : Reg, q ≠ Reg.pc → i.dest? ≠ some q → t.reg q = s.reg q)) ∧
  (∀ t : State, t.Fetchable → ∃ w, fetchWord t = .ok w ∧
    w.extractLsb' 0 8 = t.byteAt (t.reg Reg.pc) ∧ w.extractLsb' 8 8 = t.byteAt (t.reg Reg.pc + 1) ∧
    w.extractLsb' 16 8 = t.byteAt (t.reg Reg.pc + 2) ∧ w.extractLsb' 24 8 = t.byteAt (t.reg Reg.pc + 3)) ∧
  ∀ (i : Instr) (r : Reg), i.dest? = some r ↔
    (i.mnemonic ∉ ["nop", "stw", "stb"] ∧ (encode i).extractLsb' 8 8 = BitVec.ofNat 8 r.val)

/-- The targets of the transfers in 45_control_transfer.md section 1, every row of its table, whose `r0` sources read as `a + 4`
(derived there). A shift out of range makes the target a free value (decision D12, log entry 6). -/
def Obligations.TransferTargetsAreTheResults : Prop :=
  ∀ s : State, s.Fetchable → ∀ rB rC : Reg,
    (∀ imm : Imm16, s.AtPc (.set Reg.pc imm) → ∃ t, step s = .next t ∧ t.pc = imm.signExtend 32) ∧
    (s.AtPc (.mov Reg.pc rB) → ∃ t, step s = .next t ∧ t.pc = s.during rB) ∧
    (s.AtPc (.add Reg.pc rB rC) → ∃ t, step s = .next t ∧ t.pc = s.during rB + s.during rC) ∧
    (s.AtPc (.sub Reg.pc rB rC) → ∃ t, step s = .next t ∧ t.pc = s.during rB - s.during rC) ∧
    (s.AtPc (.ldw Reg.pc rB) → s.WordAligned (s.during rB) → s.BackedFrom (s.during rB) 4 →
      ∃ t, step s = .next t ∧ t.pc.toNat = (s.byteAt (s.during rB)).toNat + 2 ^ 8 * (s.byteAt (s.during rB + 1)).toNat +
        2 ^ 16 * (s.byteAt (s.during rB + 2)).toNat + 2 ^ 24 * (s.byteAt (s.during rB + 3)).toNat) ∧
    (s.AtPc (.ldb Reg.pc rB) → Config.isBacked s.cfg (s.during rB) = true →
      ∃ t, step s = .next t ∧ t.pc.toNat = (s.pc + 4).toNat / 256 * 256 + (s.byteAt (s.during rB)).toNat) ∧
    (s.AtPc (.and Reg.pc rB rC) → ∃ t, step s = .next t ∧ t.pc = s.during rB &&& s.during rC) ∧
    (s.AtPc (.orr Reg.pc rB rC) → ∃ t, step s = .next t ∧ t.pc = s.during rB ||| s.during rC) ∧
    (s.AtPc (.xor Reg.pc rB rC) → ∃ t, step s = .next t ∧ t.pc = s.during rB ^^^ s.during rC) ∧
    (s.AtPc (.not Reg.pc rB) → ∃ t, step s = .next t ∧ t.pc = ~~~(s.during rB)) ∧
    (s.AtPc (.tcu Reg.pc rB rC) → ∃ t, step s = .next t ∧
      ((s.during rB).toNat < (s.during rC).toNat → t.pc = s.cfg.signNeg) ∧
      ((s.during rB).toNat = (s.during rC).toNat → t.pc = s.cfg.signZero) ∧
      ((s.during rB).toNat > (s.during rC).toNat → t.pc = s.cfg.signPos)) ∧
    (s.AtPc (.tcs Reg.pc rB rC) → ∃ t, step s = .next t ∧
      ((s.during rB).toInt < (s.during rC).toInt → t.pc = s.cfg.signNeg) ∧
      ((s.during rB).toInt = (s.during rC).toInt → t.pc = s.cfg.signZero) ∧
      ((s.during rB).toInt > (s.during rC).toInt → t.pc = s.cfg.signPos)) ∧
    (s.AtPc (.lsh Reg.pc rB rC) → ∃ t, step s = .next t ∧ ∀ n : Int, n = (s.during rC).toInt →
      (1 ≤ n → n ≤ 31 → t.pc.toNat = (s.during rB).toNat * 2 ^ n.toNat % 2 ^ 32) ∧
      (n = 0 → t.pc = s.during rB) ∧
      (-31 ≤ n → n ≤ -1 → t.pc.toNat = (s.during rB).toNat / 2 ^ (-n).toNat) ∧
      (n ≤ -32 ∨ 32 ≤ n → t.pc = Config.freeWord s.draws)) ∧
    (s.AtPc (.ash Reg.pc rB rC) → ∃ t, step s = .next t ∧ ∀ n : Int, n = (s.during rC).toInt →
      (1 ≤ n → n ≤ 31 → t.pc.toNat = (s.during rB).toNat * 2 ^ n.toNat % 2 ^ 32) ∧
      (n = 0 → t.pc = s.during rB) ∧
      (-31 ≤ n → n ≤ -1 → t.pc.toInt = (s.during rB).toInt / 2 ^ (-n).toNat) ∧
      (n ≤ -32 ∨ 32 ≤ n → t.pc = Config.freeWord s.draws))

/-- Reading `r0` gives `a + 4` in every position (derived in 45_control_transfer.md): as a source, as the address of a load or a
store, and as the data of a store. -/
def Obligations.ReadingThePcGivesTheNextInstructionsAddress : Prop :=
  ∀ s : State, s.Fetchable → ∀ r q : Reg, r ≠ Reg.pc →
    (s.AtPc (.mov r Reg.pc) → ∃ t, step s = .next t ∧ t.reg r = s.pc + 4) ∧
    (q ≠ Reg.pc → s.AtPc (.add r Reg.pc q) → ∃ t, step s = .next t ∧ t.reg r = s.pc + 4 + s.reg q) ∧
    (q ≠ Reg.pc → s.AtPc (.sub r q Reg.pc) → ∃ t, step s = .next t ∧ t.reg r = s.reg q - (s.pc + 4)) ∧
    (s.AtPc (.ldw r Reg.pc) → s.BackedFrom (s.pc + 4) 4 → ∃ t, step s = .next t ∧ t.reg r = s.wordAt (s.pc + 4)) ∧
    (s.AtPc (.stw r Reg.pc) → s.WordAligned (s.reg r) → s.BackedFrom (s.reg r) 4 →
      ∃ t, step s = .next t ∧ t.wordAt (s.reg r) = s.pc + 4) ∧
    (s.AtPc (.stb Reg.pc r) → Config.isBacked s.cfg (s.pc + 4) = true →
      ∃ t, step s = .next t ∧ t.byteAt (s.pc + 4) = (s.reg r).extractLsb' 0 8)

/-- A transfer goes on whatever its target is: `mov r0 rB` to any value, and a load into `r0` faults only where the same load into
any register faults. Whatever step led to `x[0]`, the fault, if any, is the next fetch's or decode's, reported there with the
state that step left, and an end address ends the run (decisions D5, D7, D8, D9, D16, D20). Which unbacked byte is named is said
where the spec's answers agree (`State.Hole`, log entry 10). -/
def Obligations.TransfersFaultAtTheirTarget : Prop :=
  (∀ (s : State) (rB : Reg), s.Fetchable → s.AtPc (.mov Reg.pc rB) →
    ∃ t, step s = .next t ∧ t.pc = s.during rB ∧ t.cfg = s.cfg) ∧
  (∀ (s : State) (i : Instr) (f : Fault), i.dest? = some Reg.pc → exec i s = .fault f →
    ∃ rB, (i = .ldw Reg.pc rB ∧ ∀ rA, exec (.ldw rA rB) s = .fault f) ∨
      (i = .ldb Reg.pc rB ∧ ∀ rA, exec (.ldb rA rB) s = .fault f)) ∧
  ∀ s t : State, step s = .next t →
    (t.pc ∈ t.cfg.endAddrs → ∀ k, Run.advanceBy (k + 2) (Run.start s) = ⟨t, .ended⟩) ∧
    (t.pc ∉ t.cfg.endAddrs →
      (t.cfg.misalignedOk = false → t.pc.toNat % 4 ≠ 0 →
        ∀ k, Run.advanceBy (k + 2) (Run.start s) = ⟨t, .faulted (.misalignedFetch t.pc)⟩) ∧
      (t.WordAligned t.pc → ¬ t.BackedFrom t.pc 4 →
        ∃ b ∈ touched .word t.pc, Config.isBacked t.cfg b = false ∧
          ∀ k, Run.advanceBy (k + 2) (Run.start s) = ⟨t, .faulted (.accessFault b .fetch t.pc)⟩) ∧
      (t.WordAligned t.pc → ∀ j, j < 4 → t.Hole t.pc j →
        ∀ k, Run.advanceBy (k + 2) (Run.start s) = ⟨t, .faulted (.accessFault (t.pc + BitVec.ofNat 32 j) .fetch t.pc)⟩) ∧
      (t.WordAligned t.pc → t.BackedFrom t.pc 4 → (∀ i, ¬ t.AtPc i) →
        ∀ k, Run.advanceBy (k + 2) (Run.start s) = ⟨t, .faulted (.illegalInstruction (t.wordAt t.pc) t.pc)⟩))

/-! ## Memory -/

/-- R35: a fetch checks its alignment, then that its bytes are backed, and reads little-endian what a data load of the same four
bytes reads; the fields of the instruction stand in the bytes in their order, and `ldb` there reads its opcode. That the two
checks fail with a fault is the spec's own decisions D5 and D7, which R35 takes in. Which unbacked byte is named is said where the
spec's answers agree (`State.Hole`); it says nothing of the choice of log entry 10. -/
def Obligations.FetchReadsTheBytesALoadReads : Prop :=
  ∀ s : State,
    (s.cfg.misalignedOk = false → s.pc.toNat % 4 ≠ 0 → fetchWord s = .error (.misalignedFetch s.pc)) ∧
    (s.WordAligned s.pc → ¬ s.BackedFrom s.pc 4 →
      ∃ b ∈ touched .word s.pc, Config.isBacked s.cfg b = false ∧ fetchWord s = .error (.accessFault b .fetch s.pc)) ∧
    (s.WordAligned s.pc → ∀ k, k < 4 → s.Hole s.pc k →
      fetchWord s = .error (.accessFault (s.pc + BitVec.ofNat 32 k) .fetch s.pc)) ∧
    (s.WordAligned s.pc → s.BackedFrom s.pc 4 →
      ∃ w, fetchWord s = .ok w ∧
        Fields.ofWord w = ⟨s.byteAt s.pc, s.byteAt (s.pc + 1), s.byteAt (s.pc + 2), s.byteAt (s.pc + 3)⟩ ∧
        (∀ k : Nat, k < 8 → w.getLsbD k = (s.byteAt s.pc).getLsbD k) ∧
        (∀ (rA : Reg) (imm : Imm16), decode w = .ok (.set rA imm) →
          imm.extractLsb' 0 8 = s.byteAt (s.pc + 2) ∧ imm.extractLsb' 8 8 = s.byteAt (s.pc + 3)) ∧
        ∀ rA rB : Reg, s.reg rB = s.pc →
          (∃ t, exec (.ldw rA rB) s = .next t ∧ t.reg rA = w) ∧
          ∃ t, exec (.ldb rA rB) s = .next t ∧ (t.reg rA).extractLsb' 0 8 = (Fields.ofWord w).op)

/-- A stored word is loaded back from the same address register, into any register, and its bytes are loaded little-endian from
the addresses after it (decisions D21, D26; little-endian bytes are G3). -/
def Obligations.LoadsReturnTheStoredWordAndItsBytes : Prop :=
  ∀ (s t : State) (rA rB rC : Reg), exec (.stw rA rB) s = .next t →
    (∃ u, exec (.ldw rC rA) t = .next u ∧ u.reg rC = s.reg rB) ∧
    ∀ (rD : Reg) (k : Nat), k < 4 → t.reg rD = s.reg rA + BitVec.ofNat 32 k →
      ∃ u, exec (.ldb rC rD) t = .next u ∧
        (u.reg rC).toNat = (s.reg rC).toNat / 256 * 256 + (s.reg rB).toNat / 2 ^ (8 * k) % 256

/-- Self-modifying code: the word stored through `r0` is what the very next step runs, and `x[0]` then holds `a + 8` (the spec's
own decision D22). -/
def Obligations.AStoreIsSeenByTheVeryNextFetch : Prop :=
  ∀ (s : State) (rB : Reg) (j : Instr), s.Fetchable → s.AtPc (.stw Reg.pc rB) →
    s.BackedFrom (s.pc + 4) 4 → s.pc + 4 ∉ s.cfg.endAddrs → decode (s.during rB) = .ok j →
      ∃ t, step s = .next t ∧ t.pc = s.pc + 4 ∧ step t = exec j t.advancePc ∧ t.advancePc.pc = s.pc + 8

/-- Only stores change memory, and only at the addresses they touch, all of them backed; so a byte outside `MEM` never changes
(the widths are those of 20_memory.md section 4, backing is decision D5). -/
def Obligations.OnlyStoresChangeMemoryAndOnlyBackedBytes : Prop :=
  ∀ s t : State, step s = .next t →
    (∀ a : Word, Config.isBacked s.cfg a = false → t.byteAt a = s.byteAt a) ∧
    ∃ i, s.AtPc i ∧
      ((∃ rA rB, i = .stw rA rB ∧ State.SameMemOutside .word (s.during rA) s t) ∨
       (∃ rA rB, i = .stb rA rB ∧ State.SameMemOutside .byte (s.during rA) s t) ∨
       (i.mnemonic ∉ ["stw", "stb"] ∧ t.mem = s.mem))

/-- Two canonical memories that read alike at every address are the same list of cells: equal memories are equal data. The
canonical form is the model's (log entry 5). -/
def Obligations.CanonicalMemoryIsDeterminedByItsBytes : Prop :=
  ∀ m n : Memory, m.wf → n.wf → (∀ a : Nat, a < 2 ^ 32 → m.read a = n.read a) → m = n

/-! ## Invariants and whole-machine rules -/

/-- Every step keeps memory canonical and inside `MEM`, from every state in which it is. -/
def Obligations.EveryStepKeepsTheInvariant : Prop :=
  ∀ s t : State, s.Inv → step s = .next t → t.Inv

/-- The machine right after reset meets the invariant, stands at the entry of the vectors, has not ended its run, and is the
launch with the vectors' values and every open value 0 (log entries 2 to 5, 7, 10). -/
def Obligations.ResetMeetsTheInvariant : Prop :=
  State.reset.Inv ∧ State.reset.pc = 0x00000000 ∧ State.reset.ended = false ∧
  State.reset = State.launch Config.vectors Launch.vectors

/-- Every launch meets the invariant, whatever its image and its other contents. -/
def Obligations.EveryLaunchMeetsTheInvariant : Prop :=
  ∀ (c : Config) (l : Launch), (State.launch c l).Inv

/-- Reset: `x[0] = ENTRY`, the other registers anything, memory as `IMAGE` where it is defined and anything backed elsewhere, not
faulted (the spec's own decision D19). -/
def Obligations.LaunchIsReset : Prop :=
  ∀ (c : Config) (l : Launch),
    (State.launch c l).pc = l.entry ∧ (State.launch c l).cfg = c ∧
    (∀ q : Reg, q ≠ Reg.pc → (State.launch c l).reg q = l.regs[q.val]) ∧
    ((l.image.map Prod.fst).Nodup → ∀ a v, (a, v) ∈ l.image → Config.isBacked c a = true →
      (State.launch c l).byteAt a = v) ∧
    ((l.rest.map Prod.fst).Nodup → ∀ a v, (a, v) ∈ l.rest → a ∉ l.image.map Prod.fst → Config.isBacked c a = true →
      (State.launch c l).byteAt a = v) ∧
    (Run.start (State.launch c l)).condition = .running

/-- The parameters of 00_scope.md section 4 are arguments of the machine: no step changes them (log entry 1). -/
def Obligations.NoStepChangesTheParameters : Prop :=
  ∀ (k : Nat) (s : State), (Run.advanceBy k (Run.start s)).state.cfg = s.cfg

/-- Beside the parameters, the registers and the backed memory are all a step depends on and all it produces: two states that
agree on them take the same outcome and agree afterwards, whatever stands outside `MEM` and whatever the counts of draws. Where
the step is a shift out of range, its destination agrees if the counts do: a draw is the opaque constant at the count (log entry
6), which says nothing of two executions on a real machine. -/
def Obligations.StepDependsOnlyOnRegistersAndBackedMemory : Prop :=
  ∀ s u : State, s.cfg = u.cfg → (∀ q : Reg, s.reg q = u.reg q) →
    (∀ a : Word, Config.isBacked s.cfg a = true → s.byteAt a = u.byteAt a) →
    (∀ f, step s = .fault f ↔ step u = .fault f) ∧ (∀ r, step s = .refused r ↔ step u = .refused r) ∧
    ∀ t, step s = .next t → ∃ v, step u = .next v ∧ t.cfg = v.cfg ∧ t.draws + u.draws = v.draws + s.draws ∧
      (∀ a : Word, Config.isBacked s.cfg a = true → t.byteAt a = v.byteAt a) ∧
      (s.draws = u.draws ∨ t.draws = s.draws → ∀ q : Reg, t.reg q = v.reg q) ∧
      ∀ (i : Instr) (q : Reg), s.AtPc i → i.dest? ≠ some q → t.reg q = v.reg q

/-- A run that never faults and never ends goes on for ever: the machine has no halt and no third way to stop (decisions D16,
D20). -/
def Obligations.ARunStopsOnlyByAFaultOrAtAnEndAddress : Prop :=
  ∀ (k : Nat) (s : State),
    (Run.advanceBy k (Run.start s)).condition = .running ∨
    (∃ f, (Run.advanceBy k (Run.start s)).condition = .faulted f ∧ step (Run.advanceBy k (Run.start s)).state = .fault f) ∨
    ((Run.advanceBy k (Run.start s)).condition = .ended ∧
      (Run.advanceBy k (Run.start s)).state.pc ∈ s.cfg.endAddrs)

/-- Which unbacked byte an access fault of a word or a fetch names. Where `holeReport` is the lowest it is the lowest touched
address that is not in `MEM` (20_memory.md section 1, 60_exceptions.md section 1); where it is the first in access order it is the
one the loops of 20_memory.md section 2 find; the two are one unless the access wraps past the top of the address space. The
spec gives both answers; that both are kept, as a parameter, is the model's choice (log entry 10). -/
def Obligations.AccessFaultsNameTheByteTheParameterSays : Prop :=
  (∀ (s : State) (rA rB : Reg) (b a : Word),
    (exec (.ldw rA rB) s = .fault (.accessFault b .load a) → s.ReportedHole (s.reg rB) b) ∧
    (exec (.stw rA rB) s = .fault (.accessFault b .store a) → s.ReportedHole (s.effectiveAddr rA) b) ∧
    (step s = .fault (.accessFault b .fetch a) → a = s.pc ∧ s.ReportedHole s.pc b)) ∧
  ∀ (s : State) (addr b : Word), addr.toNat + 3 < 2 ^ 32 → s.ReportedHole addr b →
    ∃ k, k < 4 ∧ b = addr + BitVec.ofNat 32 k ∧ s.Hole addr k
end

