-- ==== Sys2Proof/Laws/Decode.lean ====
section
/-! SUPPORT. The fields of a word and the word of fields, and register fields. -/

namespace Sys2Proof

@[simp] theorem Fields.ofWord_toWord (f : Fields) : Fields.ofWord f.toWord = f := by
  obtain ⟨op, a, b, c⟩ := f
  simp only [Fields.ofWord, Fields.toWord, Fields.mk.injEq]
  refine ⟨?_, ?_, ?_, ?_⟩ <;> ext i hi <;> grind

@[simp] theorem Fields.toWord_ofWord (w : Word) : (Fields.ofWord w).toWord = w := by
  ext i hi
  simp only [Fields.ofWord, Fields.toWord]
  grind

/-- A register's field is below 32 and names that register. -/
@[simp] theorem decodeReg_encodeReg (field : FieldName) (r : Reg) : decodeReg field (encodeReg r) = .ok r := by
  have h : (encodeReg r).toNat = r.val := by
    simp only [encodeReg, BitVec.toNat_ofNat]
    omega
  simp [decodeReg, h]

@[simp] theorem encodeReg_toNat (r : Reg) : (encodeReg r).toNat = r.val := by
  simp only [encodeReg, BitVec.toNat_ofNat]
  omega

/-- A field that names a register is that register's field. -/
theorem decodeReg_eq_ok {field : FieldName} {b : Byte} {r : Reg} (h : decodeReg field b = .ok r) : encodeReg r = b := by
  unfold decodeReg at h
  split at h
  · have := Except.ok.inj h
    subst this
    simp [encodeReg]
  · cases h

theorem decodeReg_eq_ok_iff (field : FieldName) (b : Byte) : (∃ r, decodeReg field b = .ok r) ↔ b.toNat < 32 := by
  unfold decodeReg
  split <;> simp_all

end Sys2Proof
end

