-- ==== Sys2Proof/Laws/Memory.lean ====
section
/-! SUPPORT. Memory: a write is read back, every other address keeps its byte, and the canonical form is kept. None of the
first two needs the canonical form. -/

namespace Sys2Proof.Machine

theorem Memory.read_nil (a : Nat) : Memory.read [] a = Memory.unlistedByte := rfl

theorem Memory.read_cons (k : Nat) (v : Byte) (m : Memory) (a : Nat) :
    Memory.read ((k, v) :: m) a = if k = a then v else Memory.read m a := rfl

/-- An address no cell lists reads as the unlisted byte. -/
theorem Memory.read_unlisted {m : Memory} {a : Nat} (h : ∀ c ∈ m, c.1 ≠ a) : Memory.read m a = Memory.unlistedByte := by
  induction m with
  | nil => rfl
  | cons c m ih =>
    obtain ⟨k, v⟩ := c
    have hk : k ≠ a := h (k, v) (by simp)
    rw [Memory.read_cons, if_neg hk]
    exact ih fun c hc => h c (by simp [hc])

/-- Cells before that do not list the address do not matter. -/
theorem Memory.read_append {m n : Memory} {a : Nat} (h : ∀ c ∈ m, c.1 ≠ a) :
    Memory.read (m ++ n) a = Memory.read n a := by
  induction m with
  | nil => rfl
  | cons c m ih =>
    obtain ⟨k, v⟩ := c
    have hk : k ≠ a := h (k, v) (by simp)
    rw [List.cons_append, Memory.read_cons, if_neg hk]
    exact ih fun c hc => h c (by simp [hc])

/-- Cells after that do not list the address do not matter. -/
theorem Memory.read_append_left {m n : Memory} {a : Nat} (h : ∀ c ∈ n, c.1 ≠ a) :
    Memory.read (m ++ n) a = Memory.read m a := by
  induction m with
  | nil => exact Memory.read_unlisted h
  | cons c m ih =>
    obtain ⟨k, v⟩ := c
    rw [List.cons_append, Memory.read_cons, Memory.read_cons, ih]

/-- Dropping cells at other addresses does not matter. -/
theorem Memory.read_filter {m : Memory} {a : Nat} {p : Nat → Bool} (h : p a = true) :
    Memory.read (m.filter fun c => p c.1) a = Memory.read m a := by
  induction m with
  | nil => rfl
  | cons c m ih =>
    obtain ⟨k, v⟩ := c
    by_cases hk : k = a
    · subst hk
      simp [h, Memory.read_cons]
    · by_cases hp : p k = true
      · simp [hp, Memory.read_cons, hk, ih]
      · simp [hp, Memory.read_cons, hk, ih]

theorem Memory.read_cell_self (a : Nat) (v : Byte) : Memory.read (Memory.cell a v) a = v := by
  unfold Memory.cell
  split
  · next h => simp [Memory.read_nil, h]
  · simp [Memory.read_cons]

theorem Memory.mem_cell {a : Nat} {v : Byte} {c : Host.Cell} (h : c ∈ Memory.cell a v) :
    c = (a, v) ∧ v ≠ Memory.unlistedByte := by
  unfold Memory.cell at h
  split at h
  · simp at h
  · next hv => exact ⟨by simpa using h, hv⟩

/-- A written byte is read back. -/
@[simp] theorem Memory.read_write_self (m : Memory) (a : Nat) (v : Byte) : (m.write a v).read a = v := by
  unfold Memory.write
  rw [Memory.read_append_left (by simp only [List.mem_filter, decide_eq_true_eq]; omega),
    Memory.read_append (by simp only [List.mem_filter, decide_eq_true_eq]; omega), Memory.read_cell_self]

/-- Every other address keeps its byte. -/
theorem Memory.read_write_ne (m : Memory) {a b : Nat} (v : Byte) (h : b ≠ a) : (m.write a v).read b = m.read b := by
  unfold Memory.write
  have hcell : ∀ c ∈ Memory.cell a v, c.1 ≠ b := fun c hc => by rw [(Memory.mem_cell hc).1]; exact h.symm
  rcases Nat.lt_or_gt_of_ne h with hlt | hgt
  · rw [List.append_assoc, Memory.read_append_left, Memory.read_filter (p := fun k => decide (k < a)) (by simpa using hlt)]
    intro c hc
    rcases List.mem_append.1 hc with hc | hc
    · exact hcell c hc
    · simp only [List.mem_filter, decide_eq_true_eq] at hc
      omega
  · rw [Memory.read_append, Memory.read_filter (p := fun k => decide (a < k)) (by simpa using hgt)]
    intro c hc
    rcases List.mem_append.1 hc with hc | hc
    · simp only [List.mem_filter, decide_eq_true_eq] at hc
      omega
    · exact hcell c hc

/-- What a write can list. -/
theorem Memory.mem_write {m : Memory} {a : Nat} {v : Byte} {c : Host.Cell} (h : c ∈ m.write a v) : c ∈ m ∨ c = (a, v) := by
  simp only [Memory.write, List.mem_append, List.mem_filter] at h
  rcases h with (h | h) | h
  · exact .inl h.1
  · exact .inr (Memory.mem_cell h).1
  · exact .inl h.1

theorem Memory.wf_nil : Memory.wf [] := by simp [Memory.wf]

theorem Memory.pairwise_cell (a : Nat) (v : Byte) : (Memory.cell a v).Pairwise fun c d => c.1 < d.1 := by
  unfold Memory.cell
  split <;> simp

/-- A write inside the address space keeps the canonical form. -/
theorem Memory.wf_write {m : Memory} (h : m.wf) {a : Nat} (ha : a < 2 ^ 32) (v : Byte) : (m.write a v).wf := by
  obtain ⟨hp, hm⟩ := h
  refine ⟨?_, ?_⟩
  · unfold Memory.write
    rw [List.append_assoc, List.pairwise_append, List.pairwise_append]
    refine ⟨hp.filter _, ⟨Memory.pairwise_cell a v, hp.filter _, ?_⟩, ?_⟩
    · intro c hc d hd
      simp only [List.mem_filter, decide_eq_true_eq] at hd
      rw [(Memory.mem_cell hc).1]
      exact hd.2
    · intro c hc d hd
      simp only [List.mem_filter, decide_eq_true_eq] at hc
      rcases List.mem_append.1 hd with hd | hd
      · rw [(Memory.mem_cell hd).1]
        exact hc.2
      · simp only [List.mem_filter, decide_eq_true_eq] at hd
        omega
  · intro c hc
    simp only [Memory.write, List.mem_append, List.mem_filter] at hc
    rcases hc with (hc | hc) | hc
    · exact hm c hc.1
    · obtain ⟨rfl, hv⟩ := Memory.mem_cell hc
      exact ⟨ha, hv⟩
    · exact hm c hc.1

/-- A canonical memory with a cell lists its byte as what is read there. -/
theorem Memory.read_of_mem {m : Memory} (h : m.wf) {a : Nat} {v : Byte} (hc : (a, v) ∈ m) : m.read a = v := by
  obtain ⟨hp, -⟩ := h
  induction m with
  | nil => simp at hc
  | cons c m ih =>
    obtain ⟨k, w⟩ := c
    rw [List.pairwise_cons] at hp
    rcases List.mem_cons.1 hc with hc | hc
    · obtain ⟨rfl, rfl⟩ := Prod.mk.inj hc
      simp [Memory.read_cons]
    · have hk : k < a := hp.1 (a, v) hc
      rw [Memory.read_cons, if_neg (by omega)]
      exact ih hc hp.2

end Sys2Proof.Machine
end

