-- ==== Sys2Proof/Laws/State.lean ====
section
/-! SUPPORT. One lemma for each part of the state and each update, so that no proof unfolds a record update. -/

namespace Sys2Proof.Machine

variable (s : State) (r q : Reg) (v : Word) (a b : Word) (x : Byte)

@[simp] theorem State.setReg_mem : (s.setReg r v).mem = s.mem := rfl
@[simp] theorem State.setReg_draws : (s.setReg r v).draws = s.draws := rfl
@[simp] theorem State.setReg_cfg : (s.setReg r v).cfg = s.cfg := rfl
@[simp] theorem State.byteAt_setReg : (s.setReg r v).byteAt a = s.byteAt a := rfl
@[simp] theorem State.wordAt_setReg : (s.setReg r v).wordAt a = s.wordAt a := rfl

@[simp] theorem State.countDraw_regs : s.countDraw.regs = s.regs := rfl
@[simp] theorem State.countDraw_mem : s.countDraw.mem = s.mem := rfl
@[simp] theorem State.countDraw_draws : s.countDraw.draws = s.draws + 1 := rfl
@[simp] theorem State.countDraw_cfg : s.countDraw.cfg = s.cfg := rfl
@[simp] theorem State.reg_countDraw : s.countDraw.reg r = s.reg r := rfl
@[simp] theorem State.byteAt_countDraw : s.countDraw.byteAt a = s.byteAt a := rfl

@[simp] theorem State.setByte_regs : (s.setByte a x).regs = s.regs := rfl
@[simp] theorem State.setByte_draws : (s.setByte a x).draws = s.draws := rfl
@[simp] theorem State.setByte_cfg : (s.setByte a x).cfg = s.cfg := rfl
@[simp] theorem State.setByte_mem : (s.setByte a x).mem = s.mem.write a.toNat x := rfl
@[simp] theorem State.reg_setByte : (s.setByte a x).reg r = s.reg r := rfl
@[simp] theorem State.pc_setByte : (s.setByte a x).pc = s.pc := rfl

@[simp] theorem State.setWord_regs : (s.setWord a v).regs = s.regs := rfl
@[simp] theorem State.setWord_draws : (s.setWord a v).draws = s.draws := rfl
@[simp] theorem State.setWord_cfg : (s.setWord a v).cfg = s.cfg := rfl
@[simp] theorem State.reg_setWord : (s.setWord a v).reg r = s.reg r := rfl
@[simp] theorem State.pc_setWord : (s.setWord a v).pc = s.pc := rfl

@[simp] theorem State.advancePc_mem : s.advancePc.mem = s.mem := rfl
@[simp] theorem State.advancePc_draws : s.advancePc.draws = s.draws := rfl
@[simp] theorem State.advancePc_cfg : s.advancePc.cfg = s.cfg := rfl
@[simp] theorem State.byteAt_advancePc : s.advancePc.byteAt a = s.byteAt a := rfl
@[simp] theorem State.wordAt_advancePc : s.advancePc.wordAt a = s.wordAt a := rfl

@[simp] theorem State.placeAtPc_regs : (s.placeAtPc v).regs = s.regs := rfl
@[simp] theorem State.placeAtPc_draws : (s.placeAtPc v).draws = s.draws := rfl
@[simp] theorem State.placeAtPc_mem : (s.placeAtPc v).mem = (s.setWord s.pc v).mem := rfl
@[simp] theorem State.reg_placeAtPc : (s.placeAtPc v).reg r = s.reg r := rfl
@[simp] theorem State.pc_placeAtPc : (s.placeAtPc v).pc = s.pc := rfl
@[simp] theorem State.byteAt_placeAtPc : (s.placeAtPc v).byteAt a = (s.setWord s.pc v).byteAt a := rfl
@[simp] theorem State.wordAt_placeAtPc : (s.placeAtPc v).wordAt a = (s.setWord s.pc v).wordAt a := rfl

/-- Reading a register after writing one (R11: none is hardwired). -/
theorem State.reg_setReg : (s.setReg r v).reg q = if q = r then v else s.reg q := by
  simp only [State.reg, State.setReg, Vector.getElem_set, Fin.ext_iff]
  by_cases h : r.val = q.val
  · simp [h]
  · simp [h, Ne.symm h]

@[simp] theorem State.reg_setReg_self : (s.setReg r v).reg r = v := by simp [State.reg_setReg]

theorem State.reg_setReg_ne (h : q ≠ r) : (s.setReg r v).reg q = s.reg q := by simp [State.reg_setReg, h]

@[simp] theorem State.setReg_reg_self : s.setReg r (s.reg r) = s := by
  simp [State.setReg, State.reg]

@[simp] theorem State.pc_advancePc : s.advancePc.pc = s.pc + 4 := by
  simp [State.advancePc, State.pc]

/-- What a register reads as once `x[0]` was advanced (R13, R104). -/
theorem State.reg_advancePc : s.advancePc.reg r = if r = Reg.pc then s.pc + 4 else s.reg r := by
  simp only [State.advancePc, State.reg_setReg]

@[simp] theorem State.currentAddr_advancePc : s.advancePc.currentAddr = s.pc := by
  simp [State.currentAddr]

end Sys2Proof.Machine
end

