-- ==== Sys2Proof/Laws/Ops.lean ====
section
/-! SUPPORT. What each shared operation can do, said once: bytes and words of memory, the conditions of an access, the fetch, the
destination forms. -/

namespace Sys2Proof.Machine

/-! ## Bytes and words -/

@[simp] theorem State.byteAt_setByte_self (s : State) (a : Word) (v : Byte) : (s.setByte a v).byteAt a = v := by
  simp [State.byteAt]

theorem State.byteAt_setByte_ne (s : State) {a b : Word} (v : Byte) (h : b ≠ a) : (s.setByte a v).byteAt b = s.byteAt b :=
  Memory.read_write_ne _ _ fun e => h (BitVec.eq_of_toNat_eq e)

theorem State.byteAt_setByte (s : State) (a b : Word) (v : Byte) :
    (s.setByte a v).byteAt b = if b = a then v else s.byteAt b := by
  split
  · next h => rw [h, State.byteAt_setByte_self]
  · next h => exact s.byteAt_setByte_ne v h

/-- A byte of a stored word, and every other byte. -/
theorem State.byteAt_setWord (s : State) (a b : Word) (v : Word) :
    (s.setWord a v).byteAt b =
      if b = a + 3 then v.extractLsb' 24 8 else if b = a + 2 then v.extractLsb' 16 8
      else if b = a + 1 then v.extractLsb' 8 8 else if b = a then v.extractLsb' 0 8 else s.byteAt b := by
  simp only [State.setWord, State.byteAt_setByte]

/-- The four bytes of a word, put together, are the word. -/
theorem append_bytes (v : Word) :
    v.extractLsb' 24 8 ++ v.extractLsb' 16 8 ++ v.extractLsb' 8 8 ++ v.extractLsb' 0 8 = v := by
  ext i hi
  simp only [BitVec.getElem_append, BitVec.getElem_extractLsb']
  split
  · simp [← BitVec.getLsbD_eq_getElem]
  · split
    · rw [← BitVec.getLsbD_eq_getElem]; congr 1; omega
    · split
      · rw [← BitVec.getLsbD_eq_getElem]; congr 1; omega
      · rw [← BitVec.getLsbD_eq_getElem]; congr 1; omega

theorem add_offset_ne (a : Word) {k l : Nat} (h : k ≠ l) (hk : k < 2 ^ 32) (hl : l < 2 ^ 32) :
    a + BitVec.ofNat 32 k ≠ a + BitVec.ofNat 32 l := by
  intro e
  have := congrArg BitVec.toNat (BitVec.add_right_inj a |>.1 e)
  simp only [BitVec.toNat_ofNat] at this
  omega

/-- A stored word is read back. -/
@[simp] theorem State.wordAt_setWord (s : State) (a v : Word) : (s.setWord a v).wordAt a = v := by
  have h32 : a + 2 ≠ a + 3 := add_offset_ne a (k := 2) (l := 3) (by decide) (by decide) (by decide)
  have h13 : a + 1 ≠ a + 3 := add_offset_ne a (k := 1) (l := 3) (by decide) (by decide) (by decide)
  have h12 : a + 1 ≠ a + 2 := add_offset_ne a (k := 1) (l := 2) (by decide) (by decide) (by decide)
  have h03 : a ≠ a + 3 := by simp
  have h02 : a ≠ a + 2 := by simp
  have h01 : a ≠ a + 1 := by simp
  rw [State.wordAt]
  simp only [State.byteAt_setWord, if_true, h32, h13, h12, h03, h02, h01, if_false]
  exact append_bytes v

/-- Bytes outside a stored word are unchanged. -/
theorem State.byteAt_setWord_outside (s : State) {a b : Word} (v : Word) (h : b ∉ touched .word a) :
    (s.setWord a v).byteAt b = s.byteAt b := by
  simp only [touched, Width.bytes, List.mem_map, List.mem_range, not_exists, not_and] at h
  have h0 : b ≠ a := fun e => h 0 (by decide) (by simp [e])
  have h1 : b ≠ a + 1 := fun e => h 1 (by decide) (by simp [e])
  have h2 : b ≠ a + 2 := fun e => h 2 (by decide) (by simp [e])
  have h3 : b ≠ a + 3 := fun e => h 3 (by decide) (by simp [e])
  rw [State.byteAt_setWord, if_neg h3, if_neg h2, if_neg h1, if_neg h0]

/-! ## The canonical form of memory -/

theorem State.wf_setByte {s : State} (h : s.mem.wf) (a : Word) (v : Byte) : (s.setByte a v).mem.wf :=
  Memory.wf_write h a.isLt v

theorem State.wf_setWord {s : State} (h : s.mem.wf) (a v : Word) : (s.setWord a v).mem.wf :=
  State.wf_setByte (State.wf_setByte (State.wf_setByte (State.wf_setByte h _ _) _ _) _ _) _ _

theorem State.mem_setByte {s : State} {a : Word} {v : Byte} {c : Host.Cell} (h : c ∈ (s.setByte a v).mem) :
    c ∈ s.mem ∨ c.1 = a.toNat := by
  rcases Memory.mem_write h with h | h
  · exact .inl h
  · exact .inr (by rw [h])

/-! ## Which accesses are admitted -/

@[simp] theorem misaligned_byte (c : Config) (addr : Word) : misaligned c .byte addr = false := rfl

theorem low_bits_zero_iff (a : Word) : a.extractLsb' 0 2 = 0 ↔ a.toNat % 4 = 0 := by
  rw [← BitVec.toNat_inj]
  simp

theorem misaligned_word_eq_false_iff (c : Config) (addr : Word) :
    misaligned c .word addr = false ↔ c.misalignedOk = true ∨ addr.toNat % 4 = 0 := by
  rw [← low_bits_zero_iff]
  by_cases h : c.misalignedOk = true <;> simp [misaligned, h]

theorem misaligned_word_eq_true_iff (c : Config) (addr : Word) :
    misaligned c .word addr = true ↔ c.misalignedOk = false ∧ addr.toNat % 4 ≠ 0 := by
  rw [← Bool.not_eq_false, misaligned_word_eq_false_iff]
  simp

theorem mem_unbackedBytes_iff (c : Config) (w : Width) (addr b : Word) :
    b ∈ unbackedBytes c w addr ↔ b ∈ touched w addr ∧ Config.isBacked c b = false := by
  simp [unbackedBytes]

theorem mem_touched_iff (w : Width) (addr b : Word) : b ∈ touched w addr ↔ ∃ k, k < w.bytes ∧ addr + BitVec.ofNat 32 k = b := by
  simp [touched]

/-- No touched address is unbacked exactly when every offset of the access is backed. -/
theorem unbackedBytes_eq_nil_iff (c : Config) (w : Width) (addr : Word) :
    unbackedBytes c w addr = [] ↔ ∀ k, k < w.bytes → Config.isBacked c (addr + BitVec.ofNat 32 k) = true := by
  simp [unbackedBytes, touched]

@[simp] theorem lowest?_eq_none_iff (l : List Word) : lowest? l = none ↔ l = [] := by
  cases l with
  | nil => simp [lowest?]
  | cons a rest => cases h : lowest? rest <;> simp [lowest?, h]

/-- The lowest address is in the list, and none there is lower. -/
theorem lowest?_spec {l : List Word} {b : Word} (h : lowest? l = some b) : b ∈ l ∧ ∀ a ∈ l, b.toNat ≤ a.toNat := by
  induction l generalizing b with
  | nil => cases h
  | cons a rest ih =>
    unfold lowest? at h
    split at h
    · next hn =>
      cases h
      rw [lowest?_eq_none_iff] at hn
      simp [hn]
    · next c hc =>
      obtain ⟨hm, hl⟩ := ih hc
      cases h
      split
      · next hlt => exact ⟨.tail _ hm, by simpa [List.forall_mem_cons, hlt.le] using hl⟩
      · next hlt =>
        refine ⟨.head _, fun x hx => ?_⟩
        rcases List.mem_cons.1 hx with rfl | hx
        · exact Nat.le_refl _
        · have := hl x hx; omega

/-- An access reports no byte exactly when every offset of it is backed. -/
theorem reportedUnbacked?_eq_none_iff (c : Config) (w : Width) (addr : Word) :
    reportedUnbacked? c w addr = none ↔ ∀ k, k < w.bytes → Config.isBacked c (addr + BitVec.ofNat 32 k) = true := by
  rw [← unbackedBytes_eq_nil_iff]
  unfold reportedUnbacked?
  cases c.holeReport <;> simp

/-- The byte an access reports is one it touches, is not backed, and is the lowest such byte where the report is the lowest. -/
theorem reportedUnbacked?_spec {c : Config} {w : Width} {addr b : Word} (h : reportedUnbacked? c w addr = some b) :
    b ∈ touched w addr ∧ Config.isBacked c b = false ∧
      (c.holeReport = .lowest → ∀ a ∈ touched w addr, Config.isBacked c a = false → b.toNat ≤ a.toNat) := by
  unfold reportedUnbacked? at h
  split at h
  · obtain ⟨hm, hl⟩ := lowest?_spec h
    obtain ⟨h1, h2⟩ := (mem_unbackedBytes_iff c w addr b).1 hm
    exact ⟨h1, h2, fun _ a ha hb => hl a ((mem_unbackedBytes_iff c w addr a).2 ⟨ha, hb⟩)⟩
  · next hr =>
    obtain ⟨h1, h2⟩ := (mem_unbackedBytes_iff c w addr b).1 (List.mem_of_mem_head? h)
    exact ⟨h1, h2, fun hl => absurd hl (by simp [hr])⟩

/-- The first unbacked byte in access order stands at an offset before which every one is backed. -/
theorem head?_unbackedBytes (c : Config) (w : Width) (addr : Word) {k : Nat} (hk : k < w.bytes)
    (hb : ∀ j, j < k → Config.isBacked c (addr + BitVec.ofNat 32 j) = true)
    (hu : Config.isBacked c (addr + BitVec.ofNat 32 k) = false) :
    (unbackedBytes c w addr).head? = some (addr + BitVec.ofNat 32 k) := by
  unfold unbackedBytes touched
  rw [List.head?_filter, List.find?_map, Option.map_eq_some_iff]
  refine ⟨k, ?_, rfl⟩
  rw [List.find?_range_eq_some]
  exact ⟨by simp [hu], by simpa using hk, fun j hj => by simp [hb j hj]⟩

/-- Where the report is the first in access order, every byte before the reported one is backed. -/
theorem reportedUnbacked?_firstInAccessOrder {c : Config} {w : Width} {addr b : Word} (hr : c.holeReport = .firstInAccessOrder)
    (h : reportedUnbacked? c w addr = some b) :
    ∃ k, k < w.bytes ∧ b = addr + BitVec.ofNat 32 k ∧ ∀ j, j < k → Config.isBacked c (addr + BitVec.ofNat 32 j) = true := by
  rw [reportedUnbacked?, hr] at h
  dsimp only at h
  rw [unbackedBytes, touched, List.head?_filter, List.find?_map, Option.map_eq_some_iff] at h
  obtain ⟨k, hk, rfl⟩ := h
  rw [List.find?_range_eq_some] at hk
  exact ⟨k, by simpa using hk.2.1, rfl, by simpa using hk.2.2⟩

/-- Where the first unbacked byte in access order is also the lowest, it is the one reported. -/
theorem reportedUnbacked?_eq_some_of (c : Config) (w : Width) (addr : Word) {k : Nat} (hk : k < w.bytes)
    (hb : ∀ j, j < k → Config.isBacked c (addr + BitVec.ofNat 32 j) = true)
    (hu : Config.isBacked c (addr + BitVec.ofNat 32 k) = false)
    (hl : ∀ j, j < w.bytes → Config.isBacked c (addr + BitVec.ofNat 32 j) = false →
      (addr + BitVec.ofNat 32 k).toNat ≤ (addr + BitVec.ofNat 32 j).toNat) :
    reportedUnbacked? c w addr = some (addr + BitVec.ofNat 32 k) := by
  cases hr : c.holeReport with
  | firstInAccessOrder => rw [reportedUnbacked?, hr]; exact head?_unbackedBytes c w addr hk hb hu
  | lowest =>
    cases hs : reportedUnbacked? c w addr with
    | none => exact absurd ((reportedUnbacked?_eq_none_iff c w addr).1 hs k hk) (by simp [hu])
    | some b =>
      obtain ⟨ht, hub, hlow⟩ := reportedUnbacked?_spec hs
      obtain ⟨j, hj, rfl⟩ := (mem_touched_iff w addr b).1 ht
      have h1 := hl j hj hub
      have h2 := hlow hr _ ((mem_touched_iff w addr _).2 ⟨k, hk, rfl⟩) hu
      exact congrArg some (BitVec.eq_of_toNat_eq (Nat.le_antisymm h2 h1))

theorem dataFault?_eq_none_iff (s : State) (kind : AccessKind) (w : Width) (addr : Word) :
    dataFault? s kind w addr = none ↔ misaligned s.cfg w addr = false ∧ reportedUnbacked? s.cfg w addr = none := by
  unfold dataFault?
  cases misaligned s.cfg w addr <;> cases reportedUnbacked? s.cfg w addr <;> simp

theorem fetchFault?_eq_none_iff (s : State) :
    fetchFault? s = none ↔ misaligned s.cfg .word s.pc = false ∧ reportedUnbacked? s.cfg .word s.pc = none := by
  unfold fetchFault?
  cases misaligned s.cfg .word s.pc <;> cases reportedUnbacked? s.cfg .word s.pc <;> simp

/-- Everything a data access can do. -/
theorem dataAccess_cases (s : State) (kind : AccessKind) (w : Width) (addr : Word) (after : State) :
    (dataFault? s kind w addr = none ∧ dataAccess s kind w addr after = .next after) ∨
    (∃ f, dataFault? s kind w addr = some f ∧ dataAccess s kind w addr after = .fault f) := by
  unfold dataAccess raise
  cases h : dataFault? s kind w addr <;> simp

/-- A data access that goes on was admitted and has the effect it was given. -/
theorem dataAccess_eq_next {s t : State} {kind : AccessKind} {w : Width} {addr : Word} {after : State}
    (h : dataAccess s kind w addr after = .next t) : dataFault? s kind w addr = none ∧ t = after := by
  rcases dataAccess_cases s kind w addr after with ⟨h0, h1⟩ | ⟨f, -, h1⟩
  · rw [h1] at h; exact ⟨h0, (Host.Outcome.next.inj h).symm⟩
  · rw [h1] at h; cases h

/-- The faults of a data access: the misaligned one of a word, or the reported unbacked byte. -/
theorem dataFault?_cases {s : State} {kind : AccessKind} {w : Width} {addr : Word} {f : Fault}
    (h : dataFault? s kind w addr = some f) :
    (w = .word ∧ f = .misalignedAccess addr kind s.currentAddr) ∨
    ∃ b, reportedUnbacked? s.cfg w addr = some b ∧ f = .accessFault b kind s.currentAddr := by
  unfold dataFault? at h
  split at h
  · next hm =>
    cases w with
    | byte => simp at hm
    | word => exact .inl ⟨rfl, (Option.some.inj h).symm⟩
  · split at h
    · next b hb => exact .inr ⟨b, hb, (Option.some.inj h).symm⟩
    · cases h

/-- A fetch that goes on reads the word at `x[0]`. -/
theorem fetchWord_eq_ok {s : State} {w : Word} (h : fetchWord s = .ok w) : fetchFault? s = none ∧ w = s.wordAt s.pc := by
  unfold fetchWord at h
  split at h
  · cases h
  · next h0 => exact ⟨h0, (Except.ok.inj h).symm⟩

/-! ## Destinations -/

/-- The two things a destination that may be undefined can take. -/
theorem writeDestOrAny_cases (s : State) (rA : Reg) (result : Option Word) :
    (∃ v, result = some v ∧ writeDestOrAny s rA result = .next (s.setReg rA v)) ∨
    (result = none ∧ writeDestOrAny s rA result = .next (s.countDraw.setReg rA s.anyWord)) := by
  cases result <;> simp [writeDestOrAny, writeDest]

end Sys2Proof.Machine
end

