-- ==== Sys2Proof/Laws/Exec.lean ====
section
/-! SUPPORT. Everything an instruction can do when it goes on, and everything a step can do. -/

namespace Sys2Proof.Machine

/-- The shapes of a next state, named by what changed. -/
inductive Effect (i : Instr) (s : State) : State → Prop where
  /-- Nothing changed: `nop`. -/
  | nothing (hi : i = .nop) : Effect i s s
  /-- One register, the destination, took a value. -/
  | register (r : Reg) (v : Word) (hd : i.dest? = some r) : Effect i s (s.setReg r v)
  /-- The destination took a free value: `lsh` or `ash`. -/
  | free (rA rB rC : Reg) (hi : i = .lsh rA rB rC ∨ i = .ash rA rB rC)
      (hn : (s.reg rC).toInt ≤ -32 ∨ 32 ≤ (s.reg rC).toInt) : Effect i s (s.countDraw.setReg rA s.anyWord)
  /-- Four bytes were stored: `stw`. -/
  | word (rA rB : Reg) (hi : i = .stw rA rB) (ha : dataFault? s .store .word (s.reg rA) = none) :
      Effect i s (s.setWord (s.reg rA) (s.reg rB))
  /-- One byte was stored: `stb`. -/
  | byte (rA rB : Reg) (hi : i = .stb rA rB) (ha : dataFault? s .store .byte (s.reg rA) = none) :
      Effect i s (s.setByte (s.reg rA) ((s.reg rB).extractLsb' 0 8))

theorem shifted_eq_none {right : Word → Nat → Word} {v : Word} {n : Int} (h : shifted right v n = none) :
    n ≤ -32 ∨ 32 ≤ n := by
  unfold shifted at h
  split at h
  · cases h
  · split at h
    · cases h
    · split at h
      · cases h
      · omega

theorem shifted_eq_none_of {right : Word → Nat → Word} {v : Word} {n : Int} (h : n ≤ -32 ∨ 32 ≤ n) :
    shifted right v n = none := by
  unfold shifted
  rw [if_neg (by omega), if_neg (by omega), if_neg (by omega)]

theorem shifted_eq_some {right : Word → Nat → Word} {v w : Word} {n : Int} (h : shifted right v n = some w) :
    -31 ≤ n ∧ n ≤ 31 := by
  unfold shifted at h
  split at h
  · omega
  · split at h
    · omega
    · split at h
      · omega
      · cases h

theorem shift_effect {i : Instr} {s t : State} {rA rB rC : Reg} {right : Word → Nat → Word}
    (hi : i = .lsh rA rB rC ∨ i = .ash rA rB rC)
    (h : writeDestOrAny s rA (shifted right (s.source rB) (shiftAmount (s.source rC))) = .next t) : Effect i s t := by
  have hd : i.dest? = some rA := by rcases hi with rfl | rfl <;> rfl
  rcases writeDestOrAny_cases s rA (shifted right (s.source rB) (shiftAmount (s.source rC))) with ⟨v, -, e⟩ | ⟨hn, e⟩
  · rw [e] at h
    exact Host.Outcome.next.inj h ▸ .register rA v hd
  · rw [e] at h
    exact Host.Outcome.next.inj h ▸ .free rA rB rC hi (shifted_eq_none hn)

/-- Everything an instruction can do when it goes on. -/
theorem exec_effect {i : Instr} {s t : State} (h : exec i s = .next t) : Effect i s t := by
  cases i with
  | nop => exact Host.Outcome.next.inj h ▸ .nothing rfl
  | add rA rB rC => exact Host.Outcome.next.inj h ▸ .register rA _ rfl
  | sub rA rB rC => exact Host.Outcome.next.inj h ▸ .register rA _ rfl
  | and rA rB rC => exact Host.Outcome.next.inj h ▸ .register rA _ rfl
  | orr rA rB rC => exact Host.Outcome.next.inj h ▸ .register rA _ rfl
  | xor rA rB rC => exact Host.Outcome.next.inj h ▸ .register rA _ rfl
  | not rA rB => exact Host.Outcome.next.inj h ▸ .register rA _ rfl
  | lsh rA rB rC => exact shift_effect (.inl rfl) h
  | ash rA rB rC => exact shift_effect (.inr rfl) h
  | tcu rA rB rC => exact Host.Outcome.next.inj h ▸ .register rA _ rfl
  | tcs rA rB rC => exact Host.Outcome.next.inj h ▸ .register rA _ rfl
  | set rA imm => exact Host.Outcome.next.inj h ▸ .register rA _ rfl
  | mov rA rB => exact Host.Outcome.next.inj h ▸ .register rA _ rfl
  | ldw rA rB => exact (dataAccess_eq_next h).2 ▸ .register rA _ rfl
  | stw rA rB => exact (dataAccess_eq_next h).2 ▸ .word rA rB rfl (dataAccess_eq_next h).1
  | ldb rA rB => exact (dataAccess_eq_next h).2 ▸ .register rA _ rfl
  | stb rA rB => exact (dataAccess_eq_next h).2 ▸ .byte rA rB rfl (dataAccess_eq_next h).1

/-- Everything a step can do. -/
theorem step_cases (s : State) :
    (s.ended = true ∧ step s = .refused .runEnded) ∨
    (s.ended = false ∧ ∃ f, fetchWord s = .error f ∧ step s = .fault f) ∨
    (s.ended = false ∧ ∃ w e, fetchWord s = .ok w ∧ decode w = .error e ∧ step s = .fault (.illegalInstruction w s.pc)) ∨
    (s.ended = false ∧ ∃ w i, fetchWord s = .ok w ∧ decode w = .ok i ∧ step s = exec i s.advancePc) := by
  unfold step raise
  cases he : s.ended <;> cases hf : fetchWord s with
  | error f => simp
  | ok w => cases hd : decode w <;> simp [hd]

/-- A step that goes on ran the instruction decoded from the word at `x[0]`. -/
theorem step_eq_next {s t : State} (h : step s = .next t) :
    ∃ i, s.ended = false ∧ fetchFault? s = none ∧ decode (s.wordAt s.pc) = .ok i ∧ exec i s.advancePc = .next t := by
  rcases step_cases s with ⟨-, e⟩ | ⟨-, f, -, e⟩ | ⟨-, w, x, -, -, e⟩ | ⟨hn, w, i, hw, hi, e⟩
  · rw [e] at h; cases h
  · rw [e] at h; cases h
  · rw [e] at h; cases h
  · obtain ⟨hf, rfl⟩ := fetchWord_eq_ok hw
    exact ⟨i, hn, hf, hi, e ▸ h⟩

end Sys2Proof.Machine
end

