-- ==== Sys2Proof/Laws/Flags.lean ====
section
/-! SUPPORT. The three values of the sign of an exact difference. -/

namespace Sys2Proof.Machine

theorem signWord_of_neg (c : Config) {d : Int} (h : d < 0) : signWord c d = c.signNeg := if_pos h

theorem signWord_of_zero (c : Config) {d : Int} (h : d = 0) : signWord c d = c.signZero := by
  subst h
  rfl

theorem signWord_of_pos (c : Config) {d : Int} (h : 0 < d) : signWord c d = c.signPos := by
  rw [signWord, if_neg (by omega), if_neg (by omega)]

end Sys2Proof.Machine
end

