-- ==== Sys2Proof/Laws/PerInstr.lean ====
section
/-! SUPPORT. Statements about every instruction as syntax, one lemma for each constructor. -/

namespace Sys2Proof.Laws.EncodedFieldsWellFormed

/-- The four bytes an assembler writes for an instruction are an instruction, as WellFormed.lean checks it. -/
def Statement (i : Instr) : Prop := (encodeFields i).wellFormed = true

theorem nop : Statement .nop := rfl
theorem add (rA rB rC : Reg) : Statement (.add rA rB rC) := by
  simp [Statement, encodeFields, encodeABC, Fields.wellFormed, Fields.opcodeAssigned, Fields.registerOk, Format.ofOpcode]
theorem sub (rA rB rC : Reg) : Statement (.sub rA rB rC) := by
  simp [Statement, encodeFields, encodeABC, Fields.wellFormed, Fields.opcodeAssigned, Fields.registerOk, Format.ofOpcode]
theorem and (rA rB rC : Reg) : Statement (.and rA rB rC) := by
  simp [Statement, encodeFields, encodeABC, Fields.wellFormed, Fields.opcodeAssigned, Fields.registerOk, Format.ofOpcode]
theorem orr (rA rB rC : Reg) : Statement (.orr rA rB rC) := by
  simp [Statement, encodeFields, encodeABC, Fields.wellFormed, Fields.opcodeAssigned, Fields.registerOk, Format.ofOpcode]
theorem xor (rA rB rC : Reg) : Statement (.xor rA rB rC) := by
  simp [Statement, encodeFields, encodeABC, Fields.wellFormed, Fields.opcodeAssigned, Fields.registerOk, Format.ofOpcode]
theorem not (rA rB : Reg) : Statement (.not rA rB) := by
  simp [Statement, encodeFields, encodeAB, Fields.wellFormed, Fields.opcodeAssigned, Fields.registerOk, Format.ofOpcode,
    Format.usesC]
theorem lsh (rA rB rC : Reg) : Statement (.lsh rA rB rC) := by
  simp [Statement, encodeFields, encodeABC, Fields.wellFormed, Fields.opcodeAssigned, Fields.registerOk, Format.ofOpcode]
theorem ash (rA rB rC : Reg) : Statement (.ash rA rB rC) := by
  simp [Statement, encodeFields, encodeABC, Fields.wellFormed, Fields.opcodeAssigned, Fields.registerOk, Format.ofOpcode]
theorem tcu (rA rB rC : Reg) : Statement (.tcu rA rB rC) := by
  simp [Statement, encodeFields, encodeABC, Fields.wellFormed, Fields.opcodeAssigned, Fields.registerOk, Format.ofOpcode]
theorem tcs (rA rB rC : Reg) : Statement (.tcs rA rB rC) := by
  simp [Statement, encodeFields, encodeABC, Fields.wellFormed, Fields.opcodeAssigned, Fields.registerOk, Format.ofOpcode]
theorem set (rA : Reg) (imm : Imm16) : Statement (.set rA imm) := by
  simp [Statement, encodeFields, encodeAImm, Fields.wellFormed, Fields.opcodeAssigned, Fields.registerOk, Format.ofOpcode,
    Format.usesB, Format.usesC]
theorem mov (rA rB : Reg) : Statement (.mov rA rB) := by
  simp [Statement, encodeFields, encodeAB, Fields.wellFormed, Fields.opcodeAssigned, Fields.registerOk, Format.ofOpcode,
    Format.usesC]
theorem ldw (rA rB : Reg) : Statement (.ldw rA rB) := by
  simp [Statement, encodeFields, encodeAB, Fields.wellFormed, Fields.opcodeAssigned, Fields.registerOk, Format.ofOpcode,
    Format.usesC]
theorem stw (rA rB : Reg) : Statement (.stw rA rB) := by
  simp [Statement, encodeFields, encodeAB, Fields.wellFormed, Fields.opcodeAssigned, Fields.registerOk, Format.ofOpcode,
    Format.usesC]
theorem ldb (rA rB : Reg) : Statement (.ldb rA rB) := by
  simp [Statement, encodeFields, encodeAB, Fields.wellFormed, Fields.opcodeAssigned, Fields.registerOk, Format.ofOpcode,
    Format.usesC]
theorem stb (rA rB : Reg) : Statement (.stb rA rB) := by
  simp [Statement, encodeFields, encodeAB, Fields.wellFormed, Fields.opcodeAssigned, Fields.registerOk, Format.ofOpcode,
    Format.usesC]

end Sys2Proof.Laws.EncodedFieldsWellFormed
end

