-- ==== Sys2Proof/Tests/Slice0.lean ====
section
/-! SUPPORT. Tests. Expected results are those of the spec: the vectors of 95_test_vectors.md (their ids stand in the comments),
and words written out from the formats of 30_encoding.md. At the end, for each statement with hypotheses, a state and operands
that meet them. -/

namespace Sys2Proof.Tests

open Sys2Proof.Machine

/-! ## Ill-formed words, one for each check (EN16, EN12, EN8, EN5), and well-formed ones -/

theorem test_wellFormed_refuses_opcode : (Fields.mk 0x11 0 0 0).wellFormed = false := by decide
theorem test_wellFormed_refuses_fieldA : (Fields.mk 0x0B 0x20 0x05 0).wellFormed = false := by decide
theorem test_wellFormed_refuses_fieldB : (Fields.mk 0x06 0x01 0x20 0).wellFormed = false := by decide
theorem test_wellFormed_refuses_fieldC : (Fields.mk 0x01 0x01 0x02 0x20).wellFormed = false := by decide
theorem test_wellFormed_ignores_ignored : (Fields.mk 0x06 0x01 0x02 0xFF).wellFormed = true := by decide
theorem test_wellFormed_highest : (Fields.mk 0x01 0x1F 0x1F 0x1F).wellFormed = true := by decide
/-- No opcode selects format `op rA` or `op rA rB imm` (R57). -/
theorem test_unused_formats :
    ∀ op : Byte, Format.ofOpcode op ≠ some .opA ∧ Format.ofOpcode op ≠ some .opABImm := by decide

/-! ## Decoding: a word for each instruction, byte by byte from R51 and R58 (bytes `op A B C` in memory order) -/

theorem test_decode_nop : decodeBytes [0x00, 0xEF, 0xCD, 0xAB] = .ok (.nop, []) := rfl
theorem test_decode_add : decodeBytes [0x01, 0x01, 0x02, 0x03] = .ok (.add 1 2 3, []) := rfl
theorem test_decode_sub : decodeBytes [0x02, 0x1F, 0x1F, 0x01] = .ok (.sub 31 31 1, []) := rfl
theorem test_decode_and : decodeBytes [0x03, 0x06, 0x06, 0x04] = .ok (.and 6 6 4, []) := rfl
theorem test_decode_orr : decodeBytes [0x04, 0x02, 0x02, 0x04] = .ok (.orr 2 2 4, []) := rfl
theorem test_decode_xor : decodeBytes [0x05, 0x0A, 0x01, 0x09] = .ok (.xor 10 1 9, []) := rfl
theorem test_decode_not : decodeBytes [0x06, 0x01, 0x02, 0xFF] = .ok (.not 1 2, []) := rfl
theorem test_decode_lsh : decodeBytes [0x07, 0x03, 0x01, 0x02] = .ok (.lsh 3 1 2, []) := rfl
theorem test_decode_ash : decodeBytes [0x08, 0x04, 0x01, 0x02] = .ok (.ash 4 1 2, []) := rfl
theorem test_decode_tcu : decodeBytes [0x09, 0x06, 0x05, 0x01] = .ok (.tcu 6 5 1, []) := rfl
theorem test_decode_tcs : decodeBytes [0x0A, 0x07, 0x01, 0x05] = .ok (.tcs 7 1 5, []) := rfl
theorem test_decode_set : decodeBytes [0x0B, 0x04, 0xEC, 0xFF] = .ok (.set 4 0xFFEC, []) := rfl
theorem test_decode_mov : decodeBytes [0x0C, 0x00, 0x0A, 0x00] = .ok (.mov 0 10, []) := rfl
theorem test_decode_ldw : decodeBytes [0x0D, 0x08, 0x01, 0x00] = .ok (.ldw 8 1, []) := rfl
theorem test_decode_stw : decodeBytes [0x0E, 0x01, 0x02, 0x00] = .ok (.stw 1 2, []) := rfl
theorem test_decode_ldb : decodeBytes [0x0F, 0x05, 0x01, 0x00] = .ok (.ldb 5 1, []) := rfl
theorem test_decode_stb : decodeBytes [0x10, 0x07, 0x05, 0x00] = .ok (.stb 7 5, []) := rfl
theorem test_decode_unassigned : decode 0xFFFFFFFF = .error (.unassignedOpcode 0xFF) := rfl
theorem test_decode_register_32 : decode 0x20020101 = .error (.noSuchRegister .fieldC 32) := rfl
theorem test_decode_short : decodeBytes [0x01, 0x01, 0x02] = .error (.tooShort 3) := rfl
theorem test_encode_set : encode (.set 4 0xFFEC) = 0xFFEC040B := by decide
theorem test_encode_sub : encodeBytes (.sub 31 31 1) = [0x02, 0x1F, 0x1F, 0x01] := by decide
/-- A row given by its 8 fixed bits only: operand words of zeros. -/
theorem test_table_word : decodeTableWord 8 0x1B01 = some (.add 0 0 0) := by decide
theorem test_assemble : assemble "set" [.r 1, .number 0xFFFF] = some (.set 1 0xFFFF) := by decide
theorem test_assemble_aliases : assemble "add" [.sp, .pc, .r 5] = some (.add 31 0 5) := by decide

/-! ## One step on a small state -/

/-- The machine after reset with some registers and bytes set. -/
def small (regs : List (Reg × Word)) (cells : List (Word × Byte)) : State :=
  (regs.foldl (fun s p => s.setReg p.1 p.2) State.reset).placeBytes cells

/-- The same with misaligned accesses allowed. -/
def smallMisaligned (regs : List (Reg × Word)) (cells : List (Word × Byte)) : State :=
  let s := small regs cells
  { s with cfg := { s.cfg with misalignedOk := true } }

/-- A register after an instruction. -/
def regAfter (i : Instr) (s : State) (r : Reg) : Option Word := (nextOf (exec i s)).map fun t => t.reg r

/-- A word of memory after an instruction. -/
def wordAfter (i : Instr) (s : State) (a : Word) : Option Word := (nextOf (exec i s)).map fun t => t.wordAt a

/-- AL30 -/
theorem test_nop : (nextOf (step (small [(0, 0x100)] []))).map (fun t => (t.pc, t.regs == (small [(0, 0x104)] []).regs)) =
    some (0x104, true) := by decide
/-- AL1 -/
theorem test_add : regAfter (.add 1 2 3) (small [(2, 0x00000005), (3, 0xFFFFFFFE)] []) 1 = some 0x00000003 := by decide
/-- AL26 -/
theorem test_add_same : regAfter (.add 1 1 1) (small [(1, 0x40000001)] []) 1 = some 0x80000002 := by decide
/-- AL7 -/
theorem test_sub : regAfter (.sub 1 2 3) (small [(2, 0x00000003), (3, 0x00000005)] []) 1 = some 0xFFFFFFFE := by decide
/-- AL11 -/
theorem test_sub_order : regAfter (.sub 1 2 3) (small [(2, 0x12345678), (3, 0x87654321)] []) 1 = some 0x8ACF1357 := by decide
/-- AL13 -/
theorem test_and : regAfter (.and 1 2 3) (small [(2, 0xFFFF00FF), (3, 0x0F0F0F0F)] []) 1 = some 0x0F0F000F := by decide
/-- AL16 -/
theorem test_orr : regAfter (.orr 1 2 3) (small [(2, 0x12340000), (3, 0x00005678)] []) 1 = some 0x12345678 := by decide
/-- AL19 -/
theorem test_xor : regAfter (.xor 1 2 3) (small [(2, 0xFFFF00FF), (3, 0x0F0F0F0F)] []) 1 = some 0xF0F00FF0 := by decide
/-- AL25 -/
theorem test_not : regAfter (.not 1 2) (small [(2, 0x12345678)] []) 1 = some 0xEDCBA987 := by decide
/-- SH7 -/
theorem test_lsh_right_31 : regAfter (.lsh 1 2 3) (small [(2, 0x80000001), (3, 0xFFFFFFE1)] []) 1 = some 0x00000001 := by decide
/-- SH31 -/
theorem test_lsh_same : regAfter (.lsh 1 1 1) (small [(1, 0x00000003)] []) 1 = some 0x00000018 := by decide
/-- SH11: any value, and the step goes on (FT9). -/
theorem test_lsh_32 : regAfter (.lsh 1 2 3) (small [(2, 0x12345678), (3, 0x00000020)] []) 1 = some (Config.freeWord 0) := rfl
/-- SH24 -/
theorem test_ash_right_4 : regAfter (.ash 1 2 3) (small [(2, 0xC0000000), (3, 0xFFFFFFFC)] []) 1 = some 0xFC000000 := by decide
/-- SH19 -/
theorem test_ash_left_1 : regAfter (.ash 1 2 3) (small [(2, 0x80000001), (3, 0x00000001)] []) 1 = some 0x00000002 := by decide
/-- TC6 -/
theorem test_tcu : regAfter (.tcu 1 2 3) (small [(2, 0x80000000), (3, 0x7FFFFFFF)] []) 1 = some 0x00000001 := by decide
/-- TC4 -/
theorem test_tcu_below : regAfter (.tcu 1 2 3) (small [(2, 0x00000000), (3, 0xFFFFFFFF)] []) 1 = some 0xFFFFFFFF := by decide
/-- TC16 -/
theorem test_tcs : regAfter (.tcs 1 2 3) (small [(2, 0x80000000), (3, 0x7FFFFFFF)] []) 1 = some 0xFFFFFFFF := by decide
/-- TC14 -/
theorem test_tcs_above : regAfter (.tcs 1 2 3) (small [(2, 0x00000000), (3, 0xFFFFFFFF)] []) 1 = some 0x00000001 := by decide
/-- MV4 -/
theorem test_set : regAfter (.set 1 0x8000) (small [(1, 0xDEADBEEF)] []) 1 = some 0xFFFF8000 := by decide
/-- MV8 -/
theorem test_mov_pc : (nextOf (step (small [(0, 0x100)] [(0x100, 0x0C), (0x101, 0x05)]))).map (fun t => (t.reg 5, t.pc)) =
    some (0x104, 0x104) := by decide
/-- LS3 -/
theorem test_ldw_same :
    regAfter (.ldw 2 2) (small [(2, 0x100)] [(0x100, 0xBE), (0x101, 0xBA), (0x102, 0xFE), (0x103, 0xCA)]) 2 =
      some 0xCAFEBABE := by decide
/-- LS10b -/
theorem test_ldw_misaligned_ok :
    regAfter (.ldw 8 1) (smallMisaligned [(1, 0x102)] [(0x102, 0x34), (0x103, 0x12), (0x104, 0xEF), (0x105, 0xBE)]) 8 =
      some 0xBEEF1234 := by decide
/-- LS1 -/
theorem test_stw : (nextOf (exec (.stw 1 2) (small [(1, 0x100), (2, 0x12345678)] []))).map (fun t => t.mem) =
    some [(0x100, 0x78), (0x101, 0x56), (0x102, 0x34), (0x103, 0x12)] := by decide
/-- LS11, FT7: the fault records the address of the instruction, `0x100`. -/
theorem test_stw_misaligned :
    faultOf (step (small [(0, 0x100), (1, 0x101)] [(0x100, 0x0E), (0x101, 0x01), (0x102, 0x02)])) =
      some (.misalignedAccess 0x101 .store 0x100) := by decide
/-- LS5 -/
theorem test_ldb : regAfter (.ldb 5 1) (small [(1, 0x100), (5, 0xFFFFFFFF)] [(0x100, 0x78)]) 5 = some 0xFFFFFF78 := by decide
/-- LS7 -/
theorem test_ldb_same : regAfter (.ldb 2 2) (small [(2, 0x103)] [(0x103, 0x12)]) 2 = some 0x00000112 := by decide
/-- LS8 -/
theorem test_stb :
    wordAfter (.stb 7 5) (small [(7, 0x101), (5, 0xFFFFFF78)] [(0x100, 0x78), (0x101, 0x56), (0x102, 0x34), (0x103, 0x12)])
      0x100 = some 0x12347878 := by decide
/-- LS13 -/
theorem test_stb_unbacked :
    faultOf (exec (.stb 1 2) (small [(0, 0x104), (1, 0xFFFFFFFF)] [])) = some (.accessFault 0xFFFFFFFF .store 0x100) := by decide

/-! ## Control transfer, faults, the end of a run -/

/-- CT3 -/
theorem test_branch_back :
    (nextOf (step (small [(0, 0x24), (6, 0xFFFFFFEC)] [(0x24, 0x01), (0x27, 0x06)]))).map State.pc = some 0x14 := by decide
/-- CT8 -/
theorem test_ldb_into_pc :
    (nextOf (step (small [(0, 0x100), (1, 0x200)] [(0x100, 0x0F), (0x102, 0x01), (0x200, 0x20)]))).map State.pc =
      some 0x120 := by decide
/-- CT13: with all addresses backed the pc wraps. -/
theorem test_pc_wraps :
    (nextOf (step { small [(0, 0xFFFFFFFC)] [] with cfg := { Config.vectors with backed := [⟨0, 0xFFFFFFFF⟩] } })).map State.pc =
      some 0 := by decide
/-- FT3: alignment before backing. -/
theorem test_fetch_order : faultOf (step (small [(0, 0x00010002)] [])) = some (.misalignedFetch 0x00010002) := by decide
/-- FT2 -/
theorem test_fetch_unbacked : faultOf (step (small [(0, 0x00010000)] [])) = some (.accessFault 0x00010000 .fetch 0x00010000) := by
  decide
/-- FT5 -/
theorem test_illegal : faultOf (step (small [(0, 0x100)] [(0x100, 0x01), (0x101, 0x20)])) =
    some (.illegalInstruction 0x00002001 0x100) := by decide
/-- LS15: the lowest unbacked byte. -/
theorem test_lowest_unbacked :
    faultOf (exec (.ldw 8 1) (smallMisaligned [(0, 4), (1, 0x0000FFFE)] [])) = some (.accessFault 0x00010000 .load 0) := by decide
/-- FT8 -/
theorem test_runs_off_memory : (nextOf (step (small [(0, 0x0000FFFC)] []))).map State.pc = some 0x00010000 := by decide
/-- R132: no fetch is made at an end address, which need not be backed or aligned. -/
theorem test_run_ends :
    (Run.advanceBy 3 (Run.start { small [(0, 0x00010001)] [] with cfg := { Config.vectors with endAddrs := [0x00010001] } })).condition =
      .ended := by decide
/-- The host's placed word runs as the first instruction after reset. -/
theorem test_placed_word :
    (nextOf (step (State.reset.withFetchWord 32 0xFFEC040B))).map (fun t => (t.reg 4, t.pc)) = some (0xFFFFFFEC, 4) := by decide

/-! ## Witnesses: hypotheses of the statements met together -/

/-- A state with the bytes `op A B C` at `x[0] = 0x100`. -/
def at100 (op a b c : Byte) (regs : List (Reg × Word)) (cells : List (Word × Byte)) : State :=
  small ((0, 0x100) :: regs) ([(0x100, op), (0x101, a), (0x102, b), (0x103, c)] ++ cells)

/-- DecoderAgreesWithTheOpcodeMap: a decoded word and a row that admits it. -/
theorem witness_decoder_table : decode 0x03020101 = .ok (.add 1 2 3) ∧
    ⟨"add", .opABC, 0x00000001, 0xE0E0E0FF⟩ ∈ opcodeTable := ⟨rfl, by decide⟩
/-- IllegalWordsAreRefusedByName: each clause at the first value of its range. -/
theorem witness_illegal_opcode : ((0x00000011 : Word).extractLsb' 0 8).toNat > 0x10 := by decide
theorem witness_illegal_fieldA : Format.ofOpcode ((0x0005200B : Word).extractLsb' 0 8) = some .opAImm ∧
    Format.usesA .opAImm = true ∧ ((0x0005200B : Word).extractLsb' 8 8).toNat ≥ 32 := by decide
theorem witness_illegal_fieldB : Format.ofOpcode ((0x00201F06 : Word).extractLsb' 0 8) = some .opAB ∧
    Format.usesB .opAB = true ∧ ((0x00201F06 : Word).extractLsb' 8 8).toNat < 32 ∧
    ((0x00201F06 : Word).extractLsb' 16 8).toNat ≥ 32 := by decide
theorem witness_illegal_fieldC : Format.ofOpcode ((0x201F1F01 : Word).extractLsb' 0 8) = some .opABC ∧
    Format.usesC .opABC = true ∧ ((0x201F1F01 : Word).extractLsb' 8 8).toNat < 32 ∧
    ((0x201F1F01 : Word).extractLsb' 16 8).toNat < 32 ∧ ((0x201F1F01 : Word).extractLsb' 24 8).toNat ≥ 32 := by decide
/-- R62, R63: lines of the spec's own examples (R71, R90, R91), a comment, an alias, and two that name no instruction. -/
theorem test_assembly_add : assembleLine "add r1 r2  r3 ; a sum".toList = some (.add 1 2 3) := by decide
theorem test_assembly_set : assembleLine "set r4 -20".toList = some (.set 4 0xFFEC) ∧
    assembleLine "set r1 0xFFFF".toList = assembleLine "set r1 -1".toList := by decide
theorem test_assembly_alias : assembleLine "mov pc r5".toList = some (.mov 0 5) := by decide
theorem test_assembly_out_of_range : assembleLine "set r1 65536".toList = none ∧ assembleLine "mov r32 r1".toList = none := by
  decide
/-- AssemblyNamesTheInstruction: the ends of the range that stands for bit patterns. -/
theorem witness_assembly : (32768 : Int) ≤ 32768 ∧ (32768 : Int) ≤ 65535 ∧ (65535 : Int) ≤ 65535 := by decide
/-- StepRunsTheDecodedInstruction, NopChangesOnlyThePc: the last fetchable word, and a nop in it. -/
theorem witness_step : (small [(0, 0x0000FFFC)] []).Fetchable ∧ (small [(0, 0x0000FFFC)] []).AtPc .nop := by
  exact ⟨by decide, rfl⟩
/-- FetchAndDecodeFaultInOrder: each clause; the hole at offset 0 and, misaligned, at offset 3. -/
theorem witness_fetch_misaligned : (small [(0, 0x102)] []).pc ∉ (small [(0, 0x102)] []).cfg.endAddrs ∧
    (small [(0, 0x102)] []).cfg.misalignedOk = false ∧ (small [(0, 0x102)] []).pc.toNat % 4 ≠ 0 := by decide
theorem witness_fetch_hole_0 : (small [(0, 0x10000)] []).WordAligned (small [(0, 0x10000)] []).pc ∧
    (small [(0, 0x10000)] []).Hole (small [(0, 0x10000)] []).pc 0 := by decide
theorem witness_fetch_hole_3 : (smallMisaligned [(0, 0xFFFD)] []).WordAligned (smallMisaligned [(0, 0xFFFD)] []).pc ∧
    (smallMisaligned [(0, 0xFFFD)] []).Hole (smallMisaligned [(0, 0xFFFD)] []).pc 3 := by decide
theorem witness_fetch_illegal : (at100 0x11 0 0 0 [] []).BackedFrom (at100 0x11 0 0 0 [] []).pc 4 ∧
    (at100 0x11 0 0 0 [] []).WordAligned (at100 0x11 0 0 0 [] []).pc ∧
    ∀ i, ¬ (at100 0x11 0 0 0 [] []).AtPc i := by
  refine ⟨by decide, by decide, fun i h => ?_⟩
  have e : decode ((at100 0x11 0 0 0 [] []).wordAt (at100 0x11 0 0 0 [] []).pc) = .error (.unassignedOpcode 0x11) := rfl
  rw [State.AtPc, e] at h
  cases h
/-- RunEndsExactlyAtAnEndAddress. -/
theorem witness_end : ({ small [] [] with cfg := { Config.vectors with endAddrs := [0] } } : State).pc ∈
    ({ small [] [] with cfg := { Config.vectors with endAddrs := [0] } } : State).cfg.endAddrs := by decide
/-- FaultStopsTheRunAndKeepsItsState, FaultVoidsTheStep. -/
theorem witness_fault : step (small [(0, 0x102)] []) = .fault (.misalignedFetch 0x102) := rfl
/-- OnlyLoadsAndStoresFaultInExecution: each of the four faults. -/
theorem witness_exec_faults : exec (.ldw 8 1) (small [(0, 4), (1, 0x102)] []) = .fault (.misalignedAccess 0x102 .load 0) ∧
    exec (.stw 1 2) (small [(0, 4), (1, 0x10000)] []) = .fault (.accessFault 0x10000 .store 0) ∧
    exec (.ldb 8 1) (small [(0, 4), (1, 0x10000)] []) = .fault (.accessFault 0x10000 .load 0) ∧
    exec (.stb 1 2) (small [(0, 4), (1, 0x10000)] []) = .fault (.accessFault 0x10000 .store 0) := ⟨rfl, rfl, rfl, rfl⟩
/-- PlacedWordIsWhatTheNextStepRuns. -/
theorem witness_placed : decodeTableWord 32 0x0001080D = some (.ldw 8 1) ∧ State.reset.Fetchable := by decide
/-- LshShiftsByTheSignedAmount, AshShiftsByTheSignedAmount, ShiftsOutOfRangeTakeTheNextFreeValue: both ends of each clause. -/
theorem witness_shift_amounts : (0x0000001F : Word).toInt = 31 ∧ (0x00000001 : Word).toInt = 1 ∧ (0x00000000 : Word).toInt = 0 ∧
    (0xFFFFFFFF : Word).toInt = -1 ∧ (0xFFFFFFE1 : Word).toInt = -31 ∧ (0xFFFFFFE0 : Word).toInt = -32 ∧
    (0x00000020 : Word).toInt = 32 := by decide
/-- AshShiftsByTheSignedAmount: a vacated bit. -/
theorem witness_vacated_bit : 32 - (-(-1 : Int)).toNat ≤ 31 ∧ (31 : Nat) < 32 := by decide
/-- OnlyShiftsOutOfRangeDraw: a step that draws. -/
theorem witness_draw : (nextOf (step (at100 0x07 1 2 3 [(3, 0x20)] []))).map (fun t => t.draws) = some 1 ∧
    (at100 0x07 1 2 3 [(3, 0x20)] []).AtPc (.lsh 1 2 3) ∧ 32 ≤ ((at100 0x07 1 2 3 [(3, 0x20)] []).during 3).toInt :=
  ⟨by decide, rfl, by decide⟩
/-- OnlyShiftsOutOfRangeDraw: a step that runs no shift. -/
theorem witness_no_draw : (nextOf (step (at100 0x00 0 0 0 [] []))).map (fun t => t.draws) = some 0 ∧
    ∀ rA rB rC, ¬ ((at100 0x00 0 0 0 [] []).AtPc (.lsh rA rB rC) ∨ (at100 0x00 0 0 0 [] []).AtPc (.ash rA rB rC)) := by
  refine ⟨by decide, fun rA rB rC h => ?_⟩
  have e : decode ((at100 0x00 0 0 0 [] []).wordAt (at100 0x00 0 0 0 [] []).pc) = .ok .nop := rfl
  rcases h with h | h <;> (rw [State.AtPc, e] at h; cases h)
/-- TcuStoresTheSignOfTheUnsignedDifference, TcsStoresTheSignOfTheSignedDifference: below, equal, above. -/
theorem witness_compare : (0 : Word).toNat < (1 : Word).toNat ∧ (0 : Word).toNat = (0 : Word).toNat ∧
    (1 : Word).toNat > (0 : Word).toNat ∧ (0x80000000 : Word).toInt < (0x7FFFFFFF : Word).toInt ∧
    (0x7FFFFFFF : Word).toInt > (0x80000000 : Word).toInt := by decide
/-- DefaultSignsAreTheSignum: the machine after reset has the default values. -/
theorem witness_signs : State.reset.cfg.signNeg = Config.vectors.signNeg ∧ State.reset.cfg.signZero = Config.vectors.signZero ∧
    State.reset.cfg.signPos = Config.vectors.signPos := by decide
/-- MovCopiesTheRegister: a word with ignored bits set. -/
theorem witness_mov : (0xFF02010C : Word) &&& 0x00FFFFFF = encode (.mov 1 2) := by decide
/-- LdwLoadsAWord and StwStoresAWord: each clause. -/
theorem witness_word_misaligned : (small [(1, 0x101)] []).cfg.misalignedOk = false ∧
    ((small [(1, 0x101)] []).effectiveAddr 1).toNat % 4 ≠ 0 := by decide
theorem witness_word_hole : (smallMisaligned [(1, 0xFFFD)] []).WordAligned ((smallMisaligned [(1, 0xFFFD)] []).effectiveAddr 1) ∧
    (smallMisaligned [(1, 0xFFFD)] []).Hole ((smallMisaligned [(1, 0xFFFD)] []).effectiveAddr 1) 3 := by decide
theorem witness_word_hole_aligned : (small [(1, 0x10000)] []).WordAligned ((small [(1, 0x10000)] []).effectiveAddr 1) ∧
    (small [(1, 0x10000)] []).Hole ((small [(1, 0x10000)] []).effectiveAddr 1) 0 := by decide
theorem witness_word_admitted : (small [(1, 0xFFFC)] []).WordAligned ((small [(1, 0xFFFC)] []).effectiveAddr 1) ∧
    (small [(1, 0xFFFC)] []).BackedFrom ((small [(1, 0xFFFC)] []).effectiveAddr 1) 4 := by decide
/-- LdbMergesAByte, StbStoresAByte: the last backed byte and the first unbacked one. -/
theorem witness_byte : Config.isBacked (small [(1, 0xFFFF)] []).cfg ((small [(1, 0xFFFF)] []).effectiveAddr 1) = true ∧
    Config.isBacked (small [(1, 0x10000)] []).cfg ((small [(1, 0x10000)] []).effectiveAddr 1) = false := by decide
/-- ControlTransfersOnlyByWritingThePc: a step, and a fetchable state. -/
theorem witness_transfer : (nextOf (step (at100 0x0C 0 5 0 [(5, 0x40)] []))).map State.pc = some 0x40 ∧
    (at100 0x0C 0 5 0 [(5, 0x40)] []).Fetchable := by decide
/-- TransferTargetsAreTheResults: each row, with `rB` and `rC` among `r0`, `r5` and `r6`. -/
theorem witness_target_set : (at100 0x0B 0 0x40 0 [] []).Fetchable ∧ (at100 0x0B 0 0x40 0 [] []).AtPc (.set 0 0x40) :=
  ⟨by decide, rfl⟩
theorem witness_target_mov : (at100 0x0C 0 0 0 [] []).Fetchable ∧ (at100 0x0C 0 0 0 [] []).AtPc (.mov 0 0) :=
  ⟨by decide, rfl⟩
theorem witness_target_add : (at100 0x01 0 0 6 [] []).Fetchable ∧ (at100 0x01 0 0 6 [] []).AtPc (.add 0 0 6) :=
  ⟨by decide, rfl⟩
theorem witness_target_sub : (at100 0x02 0 0 6 [] []).Fetchable ∧ (at100 0x02 0 0 6 [] []).AtPc (.sub 0 0 6) :=
  ⟨by decide, rfl⟩
theorem witness_target_ldw : (at100 0x0D 0 5 0 [(5, 0xFFFC)] []).Fetchable ∧
    (at100 0x0D 0 5 0 [(5, 0xFFFC)] []).AtPc (.ldw 0 5) ∧
    (at100 0x0D 0 5 0 [(5, 0xFFFC)] []).WordAligned ((at100 0x0D 0 5 0 [(5, 0xFFFC)] []).during 5) ∧
    (at100 0x0D 0 5 0 [(5, 0xFFFC)] []).BackedFrom ((at100 0x0D 0 5 0 [(5, 0xFFFC)] []).during 5) 4 :=
  ⟨by decide, rfl, by decide, by decide⟩
theorem witness_target_ldb : (at100 0x0F 0 5 0 [(5, 0xFFFF)] []).Fetchable ∧
    (at100 0x0F 0 5 0 [(5, 0xFFFF)] []).AtPc (.ldb 0 5) ∧
    Config.isBacked (at100 0x0F 0 5 0 [(5, 0xFFFF)] []).cfg ((at100 0x0F 0 5 0 [(5, 0xFFFF)] []).during 5) = true :=
  ⟨by decide, rfl, by decide⟩
theorem witness_target_logic : (at100 0x03 0 0 6 [] []).AtPc (.and 0 0 6) ∧ (at100 0x04 0 0 6 [] []).AtPc (.orr 0 0 6) ∧
    (at100 0x05 0 0 6 [] []).AtPc (.xor 0 0 6) ∧ (at100 0x06 0 5 0 [] []).AtPc (.not 0 5) ∧
    (at100 0x09 0 5 6 [] []).AtPc (.tcu 0 5 6) ∧ (at100 0x0A 0 5 6 [] []).AtPc (.tcs 0 5 6) :=
  ⟨rfl, rfl, rfl, rfl, rfl, rfl⟩
theorem witness_target_shift : (at100 0x07 0 5 6 [(6, 0x20)] []).AtPc (.lsh 0 5 6) ∧
    (at100 0x08 0 5 6 [(6, 0x20)] []).AtPc (.ash 0 5 6) ∧ 32 ≤ ((at100 0x08 0 5 6 [(6, 0x20)] []).during 6).toInt ∧
    (at100 0x08 0 5 6 [(6, 0x20)] []).Fetchable := ⟨rfl, rfl, by decide, by decide⟩
/-- ReadingThePcGivesTheNextInstructionsAddress: each of the six. -/
theorem witness_pc_mov : (5 : Reg) ≠ Reg.pc ∧ (at100 0x0C 5 0 0 [] []).Fetchable ∧ (at100 0x0C 5 0 0 [] []).AtPc (.mov 5 0) :=
  ⟨by decide, by decide, rfl⟩
theorem witness_pc_add : (6 : Reg) ≠ Reg.pc ∧ (at100 0x01 5 0 6 [] []).Fetchable ∧ (at100 0x01 5 0 6 [] []).AtPc (.add 5 0 6) :=
  ⟨by decide, by decide, rfl⟩
theorem witness_pc_sub : (6 : Reg) ≠ Reg.pc ∧ (at100 0x02 5 6 0 [] []).Fetchable ∧ (at100 0x02 5 6 0 [] []).AtPc (.sub 5 6 0) :=
  ⟨by decide, by decide, rfl⟩
theorem witness_pc_ldw : (at100 0x0D 5 0 0 [] []).Fetchable ∧ (at100 0x0D 5 0 0 [] []).AtPc (.ldw 5 0) ∧
    (at100 0x0D 5 0 0 [] []).BackedFrom ((at100 0x0D 5 0 0 [] []).pc + 4) 4 := ⟨by decide, rfl, by decide⟩
theorem witness_pc_stw : (at100 0x0E 5 0 0 [(5, 0x200)] []).Fetchable ∧ (at100 0x0E 5 0 0 [(5, 0x200)] []).AtPc (.stw 5 0) ∧
    (at100 0x0E 5 0 0 [(5, 0x200)] []).WordAligned ((at100 0x0E 5 0 0 [(5, 0x200)] []).reg 5) ∧
    (at100 0x0E 5 0 0 [(5, 0x200)] []).BackedFrom ((at100 0x0E 5 0 0 [(5, 0x200)] []).reg 5) 4 :=
  ⟨by decide, rfl, by decide, by decide⟩
theorem witness_pc_stb : (at100 0x10 0 5 0 [] []).Fetchable ∧ (at100 0x10 0 5 0 [] []).AtPc (.stb 0 5) ∧
    Config.isBacked (at100 0x10 0 5 0 [] []).cfg ((at100 0x10 0 5 0 [] []).pc + 4) = true := ⟨by decide, rfl, by decide⟩
/-- TransfersFaultAtTheirTarget: a transfer, then a misaligned target, an unbacked one, one with no instruction, an end address;
and a load into `r0` that faults. -/
def jumped (target : Word) : State := small [(0, target), (5, target)] [(0x100, 0x0C), (0x102, 5), (0x120, 0x11)]
theorem witness_jump : step (small [(0, 0x100), (5, 0x121)] [(0x100, 0x0C), (0x102, 5), (0x120, 0x11)]) = .next (jumped 0x121) ∧
    step (small [(0, 0x100), (5, 0xFFFFFFFC)] [(0x100, 0x0C), (0x102, 5), (0x120, 0x11)]) = .next (jumped 0xFFFFFFFC) ∧
    step (small [(0, 0x100), (5, 0x120)] [(0x100, 0x0C), (0x102, 5), (0x120, 0x11)]) = .next (jumped 0x120) := ⟨rfl, rfl, rfl⟩
theorem witness_target_misaligned : (jumped 0x121).pc ∉ (jumped 0x121).cfg.endAddrs ∧
    (jumped 0x121).cfg.misalignedOk = false ∧ (jumped 0x121).pc.toNat % 4 ≠ 0 := by decide
theorem witness_target_unbacked : (jumped 0xFFFFFFFC).WordAligned (jumped 0xFFFFFFFC).pc ∧
    ¬ (jumped 0xFFFFFFFC).BackedFrom (jumped 0xFFFFFFFC).pc 4 ∧ (jumped 0xFFFFFFFC).Hole (jumped 0xFFFFFFFC).pc 0 := by decide
theorem witness_target_illegal : (jumped 0x120).WordAligned (jumped 0x120).pc ∧ (jumped 0x120).BackedFrom (jumped 0x120).pc 4 ∧
    ∀ i, ¬ (jumped 0x120).AtPc i := by
  refine ⟨by decide, by decide, fun i h => ?_⟩
  have e : decode ((jumped 0x120).wordAt (jumped 0x120).pc) = .error (.unassignedOpcode 0x11) := rfl
  rw [State.AtPc, e] at h
  cases h
theorem witness_target_end : (nextOf (step { at100 0x0C 0 5 0 [(5, 0x28)] [] with
    cfg := { Config.vectors with endAddrs := [0x28] } })).map (fun t => t.cfg.endAddrs.contains t.pc) = some true := by decide
theorem witness_target_load_faults : (Instr.ldw 0 5).dest? = some Reg.pc ∧
    exec (.ldw 0 5) (small [(0, 4), (5, 0x102)] []) = .fault (.misalignedAccess 0x102 .load 0) := ⟨rfl, rfl⟩
/-- FetchReadsTheBytesALoadReads: a register that holds `x[0]`, and a fetched `set`; its two checks are those of
witness_fetch_misaligned and witness_fetch_hole_3. -/
theorem witness_fetch_load : (small [(0, 0x100), (5, 0x100)] []).Fetchable ∧
    (small [(0, 0x100), (5, 0x100)] []).reg 5 = (small [(0, 0x100), (5, 0x100)] []).pc := by decide
theorem witness_fetch_immediate : (small [(0, 0x100)] [(0x100, 0x0B), (0x101, 4), (0x102, 0xEC), (0x103, 0xFF)]).Fetchable ∧
    decode ((small [(0, 0x100)] [(0x100, 0x0B), (0x101, 4), (0x102, 0xEC), (0x103, 0xFF)]).wordAt 0x100) = .ok (.set 4 0xFFEC) :=
  ⟨by decide, rfl⟩
/-- LoadsReturnTheStoredWordAndItsBytes: a store that goes on and a register at its last byte. -/
theorem witness_store_load : (nextOf (exec (.stw 1 2) (small [(1, 0x100), (2, 0x12345678), (4, 0x103)] []))).map
    (fun t => t.reg 4 == (small [(1, 0x100), (2, 0x12345678), (4, 0x103)] []).reg 1 + BitVec.ofNat 32 3) = some true := by decide
/-- AStoreIsSeenByTheVeryNextFetch (CT12). -/
theorem witness_self_modifying : (at100 0x0E 0 1 0 [(1, 0x0007020B)] []).Fetchable ∧
    (at100 0x0E 0 1 0 [(1, 0x0007020B)] []).AtPc (.stw 0 1) ∧
    (at100 0x0E 0 1 0 [(1, 0x0007020B)] []).BackedFrom ((at100 0x0E 0 1 0 [(1, 0x0007020B)] []).pc + 4) 4 ∧
    (at100 0x0E 0 1 0 [(1, 0x0007020B)] []).pc + 4 ∉ (at100 0x0E 0 1 0 [(1, 0x0007020B)] []).cfg.endAddrs ∧
    decode ((at100 0x0E 0 1 0 [(1, 0x0007020B)] []).during 1) = .ok (.set 2 7) :=
  ⟨by decide, rfl, by decide, by decide, rfl⟩
/-- OnlyStoresChangeMemoryAndOnlyBackedBytes: a storing step, and a byte that is not backed. -/
theorem witness_storing_step :
    (nextOf (step (at100 0x10 1 2 0 [(1, 0x200), (2, 0xAB)] []))).map (fun t => t.byteAt 0x200) = some 0xAB ∧
    Config.isBacked (at100 0x10 1 2 0 [(1, 0x200), (2, 0xAB)] []).cfg 0x10000 = false := by decide
/-- CanonicalMemoryIsDeterminedByItsBytes. -/
theorem witness_canonical : Memory.wf [(0, 1), (0xFFFFFFFF, 2)] := by decide
/-- EveryStepKeepsTheInvariant: a state that meets it and takes a storing step. -/
theorem witness_invariant : (at100 0x10 1 2 0 [(1, 0x200), (2, 0xAB)] []).Inv ∧
    ((nextOf (step (at100 0x10 1 2 0 [(1, 0x200), (2, 0xAB)] []))).map fun t => t.mem.length) = some 4 := by decide
/-- LaunchIsReset: an image and other contents, each address once and backed. -/
theorem witness_launch : ([((0x10 : Word), (5 : Byte))].map Prod.fst).Nodup ∧ ((0x10 : Word), (5 : Byte)) ∈ [((0x10 : Word), (5 : Byte))] ∧
    (0x20 : Word) ∉ [((0x10 : Word), (5 : Byte))].map Prod.fst ∧ Config.isBacked Config.vectors 0x10 = true ∧
    Config.isBacked Config.vectors 0x20 = true := by decide
/-- StepDependsOnlyOnRegistersAndBackedMemory: two states that differ at an address outside `MEM` and in the count of draws. -/
def elsewhere : State := { State.reset.setByte 0x10000 1 with draws := 7 }
theorem witness_noninterference :
    State.reset ≠ elsewhere ∧ State.reset.cfg = elsewhere.cfg ∧ State.reset.draws ≠ elsewhere.draws ∧
    (∀ q : Reg, State.reset.reg q = elsewhere.reg q) ∧
    ∀ a : Word, Config.isBacked State.reset.cfg a = true → State.reset.byteAt a = elsewhere.byteAt a := by
  refine ⟨by decide, rfl, by decide, fun q => rfl, fun a ha => ?_⟩
  have hm : elsewhere.mem = [(0x10000, 1)] := by decide
  have hn : (65536 : Nat) ≠ a.toNat := by
    intro e
    have hb : a = 0x10000 := BitVec.eq_of_toNat_eq e.symm
    rw [hb] at ha
    exact absurd ha (by decide)
  rw [State.byteAt, State.byteAt, hm]
  exact (if_neg hn).symm
/-- AccessFaultsNameTheByteTheParameterSays: a word that wraps, of which only the byte at the top of the address space is backed;
20_memory.md R31 names the lowest address, R33 the first in access order. -/
def wrapping (report : HoleReport) : State := { small [(0, 4), (1, 0xFFFFFFFE)] [] with
  cfg := { Config.vectors with backed := [⟨0xFFFFFFFF, 0xFFFFFFFF⟩], misalignedOk := true, holeReport := report } }
theorem test_hole_lowest : exec (.ldw 8 1) (wrapping .lowest) = .fault (.accessFault 0x00000000 .load 0) := rfl
theorem test_hole_first : exec (.ldw 8 1) (wrapping .firstInAccessOrder) = .fault (.accessFault 0xFFFFFFFE .load 0) := rfl
theorem witness_hole_stw : exec (.stw 1 8) (wrapping .lowest) = .fault (.accessFault 0x00000000 .store 0) := rfl
theorem witness_hole_fetch : step ((wrapping .lowest).setReg 0 0xFFFFFFFE) =
    .fault (.accessFault 0x00000000 .fetch 0xFFFFFFFE) := rfl
theorem witness_hole_no_wrap : (0xFFFD : Word).toNat + 3 < 2 ^ 32 ∧ (smallMisaligned [] []).ReportedHole 0xFFFD 0x10000 :=
  have h := reportedUnbacked?_spec (c := (smallMisaligned [] []).cfg) (w := .word) (addr := 0xFFFD) (b := 0x10000) rfl
  ⟨by decide, h.1, h.2.1, h.2.2, fun hr => absurd hr (by decide)⟩

end Sys2Proof.Tests
end

section
/-! PROOFS. Memory (20_memory.md): what a fetch and a load answer when their access is admitted and when it is not, and the
fields of the word they read. -/

namespace Sys2Proof

/-! ## The immediate of a decoded `set` -/

@[simp] theorem Fields.extractLsb'_imm16_low (f : Fields) : f.imm16.extractLsb' 0 8 = f.B :=
  BitVec.extractLsb'_append_eq_right

@[simp] theorem Fields.extractLsb'_imm16_high (f : Fields) : f.imm16.extractLsb' 8 8 = f.C :=
  BitVec.extractLsb'_append_eq_left

theorem decodeAImm_eq_ok {f : Fields} {mk : Reg → Imm16 → Instr} {i : Instr} (h : decodeAImm f mk = .ok i) :
    ∃ rA, decodeReg .fieldA f.A = .ok rA ∧ i = mk rA f.imm16 := by
  unfold decodeAImm at h
  split at h
  · cases h
  · next rA hA => exact ⟨rA, hA, (Except.ok.inj h).symm⟩

theorem decodeAB_eq_ok {f : Fields} {mk : Reg → Reg → Instr} {i : Instr} (h : decodeAB f mk = .ok i) :
    ∃ rA rB, decodeReg .fieldA f.A = .ok rA ∧ decodeReg .fieldB f.B = .ok rB ∧ i = mk rA rB := by
  unfold decodeAB at h
  split at h
  · cases h
  · cases h
  · next rA rB hA hB => exact ⟨rA, rB, hA, hB, (Except.ok.inj h).symm⟩

theorem decodeABC_eq_ok {f : Fields} {mk : Reg → Reg → Reg → Instr} {i : Instr} (h : decodeABC f mk = .ok i) :
    ∃ rA rB rC, decodeReg .fieldA f.A = .ok rA ∧ decodeReg .fieldB f.B = .ok rB ∧ decodeReg .fieldC f.C = .ok rC ∧
      i = mk rA rB rC := by
  unfold decodeABC at h
  split at h
  · cases h
  · cases h
  · cases h
  · next rA rB rC hA hB hC => exact ⟨rA, rB, rC, hA, hB, hC, (Except.ok.inj h).symm⟩

/-- Only opcode `0x0B` decodes to `set`, and then the immediate is the word's. The cases are the arms of `decodeFields` in their
order, grouped by format: `nop` and the error, `set`, the format `op rA rB`, the format `op rA rB rC`. -/
theorem imm_of_decodeFields_eq_set {f : Fields} {rA : Reg} {imm : Imm16} (h : decodeFields f = .ok (.set rA imm)) :
    imm = f.imm16 := by
  unfold decodeFields at h
  split at h
  case h_1 | h_18 => cases h
  case h_12 =>
    obtain ⟨r, -, hi⟩ := decodeAImm_eq_ok h
    exact (Instr.set.inj hi).2
  case h_7 | h_13 | h_14 | h_15 | h_16 | h_17 =>
    obtain ⟨_, _, -, -, hi⟩ := decodeAB_eq_ok h
    cases hi
  all_goals
    obtain ⟨_, _, _, -, -, -, hi⟩ := decodeABC_eq_ok h
    cases hi

end Sys2Proof

namespace Sys2Proof.Machine

/-! ## The byte an access reports -/

/-- An access with an unbacked byte reports one of its own unbacked bytes. -/
theorem exists_reportedUnbacked {c : Config} {w : Width} {addr : Word}
    (h : ¬ ∀ k, k < w.bytes → Config.isBacked c (addr + BitVec.ofNat 32 k) = true) :
    ∃ b ∈ touched w addr, Config.isBacked c b = false ∧ reportedUnbacked? c w addr = some b := by
  rw [← reportedUnbacked?_eq_none_iff] at h
  obtain ⟨b, hb⟩ := Option.ne_none_iff_exists'.1 h
  obtain ⟨htouched, hunbacked, -⟩ := reportedUnbacked?_spec hb
  exact ⟨b, htouched, hunbacked, hb⟩

/-- Where the spec's two answers agree, that byte is the one reported, whatever `holeReport` is. -/
theorem reportedUnbacked?_of_hole {s : State} {addr : Word} {k : Nat} (hk : k < 4) (h : s.Hole addr k) :
    reportedUnbacked? s.cfg .word addr = some (addr + BitVec.ofNat 32 k) := by
  obtain ⟨hbefore, hunbacked, hlowest⟩ := h
  exact reportedUnbacked?_eq_some_of s.cfg .word addr hk hbefore hunbacked hlowest

/-! ## The fetch -/

theorem fetchWord_of_misaligned {s : State} (hm : s.cfg.misalignedOk = false) (ha : s.pc.toNat % 4 ≠ 0) :
    fetchWord s = .error (.misalignedFetch s.pc) := by
  have h := (misaligned_word_eq_true_iff s.cfg s.pc).2 ⟨hm, ha⟩
  simp [fetchWord, fetchFault?, h]

theorem fetchWord_of_reportedUnbacked {s : State} {b : Word} (ha : s.WordAligned s.pc)
    (hb : reportedUnbacked? s.cfg .word s.pc = some b) : fetchWord s = .error (.accessFault b .fetch s.pc) := by
  have h := (misaligned_word_eq_false_iff s.cfg s.pc).2 ha
  simp [fetchWord, fetchFault?, h, hb]

theorem fetchWord_of_backed {s : State} (ha : s.WordAligned s.pc) (hb : s.BackedFrom s.pc 4) :
    fetchWord s = .ok (s.wordAt s.pc) := by
  have h : fetchFault? s = none := (fetchFault?_eq_none_iff s).2
    ⟨(misaligned_word_eq_false_iff s.cfg s.pc).2 ha, (reportedUnbacked?_eq_none_iff s.cfg .word s.pc).2 hb⟩
  simp [fetchWord, h]

/-! ## Loads that go on -/

theorem dataFault?_word_eq_none_iff (s : State) (kind : AccessKind) (addr : Word) :
    dataFault? s kind .word addr = none ↔ s.WordAligned addr ∧ s.BackedFrom addr 4 := by
  rw [dataFault?_eq_none_iff, misaligned_word_eq_false_iff, reportedUnbacked?_eq_none_iff]
  exact Iff.rfl

theorem dataFault?_byte_eq_none_iff (s : State) (kind : AccessKind) (addr : Word) :
    dataFault? s kind .byte addr = none ↔ Config.isBacked s.cfg addr = true := by
  rw [dataFault?_eq_none_iff, reportedUnbacked?_eq_none_iff]
  simp [Width.bytes]

theorem dataAccess_of_admitted {s : State} {kind : AccessKind} {w : Width} {addr : Word} (after : State)
    (h : dataFault? s kind w addr = none) : dataAccess s kind w addr after = .next after := by
  simp [dataAccess, h]

theorem exec_ldw_of_backed {s : State} (rA : Reg) {rB : Reg} (ha : s.WordAligned (s.reg rB))
    (hb : s.BackedFrom (s.reg rB) 4) : exec (.ldw rA rB) s = .next (s.setReg rA (s.wordAt (s.reg rB))) :=
  dataAccess_of_admitted _ ((dataFault?_word_eq_none_iff s .load _).2 ⟨ha, hb⟩)

theorem exec_ldb_of_backed {s : State} (rA : Reg) {rB : Reg} (hb : Config.isBacked s.cfg (s.reg rB) = true) :
    exec (.ldb rA rB) s = .next (s.setReg rA (mergeByte (s.reg rA) (s.byteAt (s.reg rB)))) :=
  dataAccess_of_admitted _ ((dataFault?_byte_eq_none_iff s .load _).2 hb)

@[simp] theorem extractLsb'_mergeByte_low (old : Word) (b : Byte) : (mergeByte old b).extractLsb' 0 8 = b :=
  BitVec.extractLsb'_append_eq_right

/-! ## The fields of a word in memory -/

/-- The four fields of a word in memory are its bytes in the order of their addresses (R35). -/
@[simp] theorem ofWord_wordAt (s : State) (a : Word) :
    Fields.ofWord (s.wordAt a) = ⟨s.byteAt a, s.byteAt (a + 1), s.byteAt (a + 2), s.byteAt (a + 3)⟩ :=
  Fields.ofWord_toWord ⟨s.byteAt a, s.byteAt (a + 1), s.byteAt (a + 2), s.byteAt (a + 3)⟩

theorem getLsbD_wordAt_low (s : State) (a : Word) {k : Nat} (hk : k < 8) :
    (s.wordAt a).getLsbD k = (s.byteAt a).getLsbD k := by
  rw [State.wordAt, BitVec.getLsbD_append, if_pos hk]

theorem imm_bytes_of_decode_wordAt_eq_set {s : State} {a : Word} {rA : Reg} {imm : Imm16}
    (h : decode (s.wordAt a) = .ok (.set rA imm)) :
    imm.extractLsb' 0 8 = s.byteAt (a + 2) ∧ imm.extractLsb' 8 8 = s.byteAt (a + 3) := by
  have himm : imm = (Fields.ofWord (s.wordAt a)).imm16 := imm_of_decodeFields_eq_set h
  simp [himm]

/-! ## The obligation -/

/-- The two loads that read the bytes at an admitted `x[0]` go on: `ldw` with the word there, `ldb` with its opcode. -/
theorem loads_at_pc_agree_with_fetch {s : State} (ha : s.WordAligned s.pc) (hb : s.BackedFrom s.pc 4) (rA : Reg) {rB : Reg}
    (hr : s.reg rB = s.pc) :
    (∃ t, exec (.ldw rA rB) s = .next t ∧ t.reg rA = s.wordAt s.pc) ∧
    ∃ t, exec (.ldb rA rB) s = .next t ∧ (t.reg rA).extractLsb' 0 8 = (Fields.ofWord (s.wordAt s.pc)).op := by
  rw [← hr] at ha hb ⊢
  have hfirst : Config.isBacked s.cfg (s.reg rB) = true := by simpa using hb 0 (by decide)
  exact ⟨⟨_, exec_ldw_of_backed rA ha hb, by simp⟩, ⟨_, exec_ldb_of_backed rA hfirst, by simp⟩⟩

/-- Settles O36: the two checks are `fetchFault?`'s in their order, and an admitted fetch reads the word of the four bytes. -/
theorem fetchReadsTheBytesALoadReads : Obligations.FetchReadsTheBytesALoadReads := by
  unfold Obligations.FetchReadsTheBytesALoadReads
  intro s
  refine ⟨fetchWord_of_misaligned, fun ha hb => ?unbacked, fun ha k hk hh => ?hole, fun ha hb => ?admitted⟩
  case unbacked =>
    obtain ⟨b, htouched, hunbacked, hreported⟩ := exists_reportedUnbacked (w := .word) hb
    exact ⟨b, htouched, hunbacked, fetchWord_of_reportedUnbacked ha hreported⟩
  case hole => exact fetchWord_of_reportedUnbacked ha (reportedUnbacked?_of_hole hk hh)
  case admitted =>
    exact ⟨s.wordAt s.pc, fetchWord_of_backed ha hb, ofWord_wordAt s s.pc, fun k hk => getLsbD_wordAt_low s s.pc hk,
      fun _ _ hset => imm_bytes_of_decode_wordAt_eq_set hset, fun rA _ hr => loads_at_pc_agree_with_fetch ha hb rA hr⟩

end Sys2Proof.Machine
end

section
/-! PROOFS. The fields of an instruction word as numbers (30_encoding.md R51): where each stands in a word that is read, and the
sum that a written word is. -/

namespace Sys2Proof

/-- Appending bits below a word is positional notation. -/
theorem toNat_append_eq_add {m n : Nat} (x : BitVec m) (y : BitVec n) : (x ++ y).toNat = 2 ^ n * x.toNat + y.toNat := by
  rw [BitVec.toNat_append, ← Nat.shiftLeft_add_eq_or_of_lt y.isLt, Nat.shiftLeft_eq, Nat.mul_comm]

/-! ## A word that is read -/

theorem toNat_extractLsb'_eq_div_mod (w : Word) (start len : Nat) :
    (w.extractLsb' start len).toNat = w.toNat / 2 ^ start % 2 ^ len := by
  rw [BitVec.extractLsb'_toNat, Nat.shiftRight_eq_div_pow]

theorem Fields.toNat_op_ofWord (w : Word) : (Fields.ofWord w).op.toNat = w.toNat % 2 ^ 8 := by
  rw [Fields.ofWord, toNat_extractLsb'_eq_div_mod, Nat.pow_zero, Nat.div_one]

theorem Fields.toNat_A_ofWord (w : Word) : (Fields.ofWord w).A.toNat = w.toNat / 2 ^ 8 % 2 ^ 8 :=
  toNat_extractLsb'_eq_div_mod w 8 8

theorem Fields.toNat_B_ofWord (w : Word) : (Fields.ofWord w).B.toNat = w.toNat / 2 ^ 16 % 2 ^ 8 :=
  toNat_extractLsb'_eq_div_mod w 16 8

theorem Fields.toNat_C_ofWord (w : Word) : (Fields.ofWord w).C.toNat = w.toNat / 2 ^ 24 := by
  have htop : w.toNat / 2 ^ 24 < 2 ^ 8 := by omega
  exact (toNat_extractLsb'_eq_div_mod w 24 8).trans (Nat.mod_eq_of_lt htop)

/-- The immediate is the upper half of the word: its low byte is `B` and its high byte is `C`. -/
theorem Fields.imm16_ofWord (w : Word) : (Fields.ofWord w).imm16 = w.extractLsb' 16 16 :=
  BitVec.extractLsb'_append_extractLsb'_eq_extractLsb' rfl

theorem Fields.toNat_imm16_ofWord (w : Word) : (Fields.ofWord w).imm16.toNat = w.toNat / 2 ^ 16 := by
  have htop : w.toNat / 2 ^ 16 < 2 ^ 16 := by omega
  rw [Fields.imm16_ofWord, toNat_extractLsb'_eq_div_mod, Nat.mod_eq_of_lt htop]

/-! ## A word that is written -/

theorem Fields.toNat_toWord (f : Fields) :
    f.toWord.toNat = f.op.toNat + 2 ^ 8 * f.A.toNat + 2 ^ 16 * f.B.toNat + 2 ^ 24 * f.C.toNat := by
  rw [Fields.toWord, toNat_append_eq_add, toNat_append_eq_add, toNat_append_eq_add]
  omega

theorem toNat_toWord_encodeABC (op : Byte) (rA rB rC : Reg) :
    (encodeABC op rA rB rC).toWord.toNat = op.toNat + 2 ^ 8 * rA.val + 2 ^ 16 * rB.val + 2 ^ 24 * rC.val := by
  simp [Fields.toNat_toWord, encodeABC]

theorem toNat_toWord_encodeAB (op : Byte) (rA rB : Reg) :
    (encodeAB op rA rB).toWord.toNat = op.toNat + 2 ^ 8 * rA.val + 2 ^ 16 * rB.val := by
  simp [Fields.toNat_toWord, encodeAB]

/-- Settles O6: the fields are read at their bits, a word is the sum of its fields, and each instruction of file 40 is its
format's sum with its own opcode. -/
theorem fieldsStandAtTheirBits : Obligations.FieldsStandAtTheirBits := by
  unfold Obligations.FieldsStandAtTheirBits
  refine ⟨fun w => ?read, Fields.toNat_toWord, fun rA rB rC => ?encoded⟩
  case read =>
    exact ⟨Fields.toNat_op_ofWord w, Fields.toNat_A_ofWord w, Fields.toNat_B_ofWord w, Fields.toNat_C_ofWord w,
      Fields.toNat_imm16_ofWord w, Fields.toWord_ofWord w⟩
  case encoded =>
    exact ⟨rfl, toNat_toWord_encodeABC 0x01 rA rB rC, toNat_toWord_encodeABC 0x02 rA rB rC,
      toNat_toWord_encodeABC 0x03 rA rB rC, toNat_toWord_encodeABC 0x04 rA rB rC, toNat_toWord_encodeABC 0x05 rA rB rC,
      toNat_toWord_encodeAB 0x06 rA rB⟩

end Sys2Proof
end

section
/-! PROOFS. `nop` (40_nop_arith_logic.md R70), and the two facts a statement about a whole step starts from: a fetchable state
runs the instruction at `x[0]`, on the state that differs from it in `x[0]` only (10_state.md R25). -/

namespace Sys2Proof

/-- The opcode alone makes a word `nop`; the other three fields are ignored (R54, R70). -/
theorem decode_eq_nop_of_opcode_zero {w : Word} (h : w.extractLsb' 0 8 = 0) : decode w = .ok .nop := by
  have hop : (Fields.ofWord w).op = 0 := h
  rw [decode, decodeFields, hop]
  rfl

end Sys2Proof

namespace Sys2Proof.Machine

theorem State.ended_eq_false_iff (s : State) : s.ended = false ↔ s.pc ∉ s.cfg.endAddrs := by
  simp [State.ended]

theorem step_eq_exec_advancePc {s : State} {i : Instr} (hf : s.Fetchable) (hi : s.AtPc i) : step s = exec i s.advancePc := by
  obtain ⟨hend, haligned, hbacked⟩ := hf
  have hrunning : s.ended = false := s.ended_eq_false_iff.2 hend
  have hword : fetchWord s = .ok (s.wordAt s.pc) := fetchWord_of_backed haligned hbacked
  simp [step, hrunning, hword, hi]

theorem State.sameRegsBut_advancePc (s : State) : State.SameRegsBut Reg.pc s s.advancePc :=
  fun _ hq => s.reg_setReg_ne Reg.pc _ _ hq

theorem State.sameMem_advancePc (s : State) : State.SameMem s s.advancePc := s.byteAt_advancePc

theorem State.sameRest_advancePc (s : State) : State.SameRest s s.advancePc := ⟨s.advancePc_cfg, s.advancePc_draws⟩

theorem exec_nop (s : State) : exec .nop s = .next s := rfl

/-- Settles O14: a step that meets a `nop` goes on with the state in which only `x[0]` was advanced. -/
theorem nopChangesOnlyThePc : Obligations.NopChangesOnlyThePc := by
  unfold Obligations.NopChangesOnlyThePc
  refine ⟨rfl, fun w hlow => decode_eq_nop_of_opcode_zero hlow, exec_nop, fun s hfetch hnop => ?step⟩
  case step =>
    have hstep : step s = .next s.advancePc := (step_eq_exec_advancePc hfetch hnop).trans (exec_nop _)
    exact ⟨s.advancePc, hstep, s.pc_advancePc, s.sameRegsBut_advancePc, s.sameMem_advancePc, s.sameRest_advancePc⟩

end Sys2Proof.Machine
end

section
/-! PROOFS. `lsh` and `ash` (41_shift.md R80, R81): what a shift by an amount from -31 to 31 answers, and what any shift leaves
unchanged. -/

namespace Sys2Proof.Machine

/-! ## The value of a shift -/

theorem shifted_of_pos (right : Word → Nat → Word) (v : Word) {n : Int} (hlow : 1 ≤ n) (hhigh : n ≤ 31) :
    shifted right v n = some (v <<< n.toNat) := if_pos ⟨hlow, hhigh⟩

theorem shifted_zero (right : Word → Nat → Word) (v : Word) : shifted right v 0 = some v := rfl

theorem shifted_of_neg (right : Word → Nat → Word) (v : Word) {n : Int} (hlow : -31 ≤ n) (hhigh : n ≤ -1) :
    shifted right v n = some (right v (-n).toNat) := by
  rw [shifted, if_neg (by omega), if_neg (by omega), if_pos ⟨hlow, hhigh⟩]

theorem toNat_shiftRightUnsigned (v : Word) (k : Nat) : (shiftRightUnsigned v k).toNat = v.toNat / 2 ^ k := by
  rw [shiftRightUnsigned, BitVec.toNat_ushiftRight, Nat.shiftRight_eq_div_pow]

theorem toInt_shiftRightSigned (v : Word) (k : Nat) : (shiftRightSigned v k).toInt = v.toInt / 2 ^ k := by
  rw [shiftRightSigned, BitVec.toInt_sshiftRight, Int.shiftRight_eq_div_pow, Int.natCast_pow, Nat.cast_ofNat]

/-- The `j` bits that an arithmetic shift to the right vacates are copies of bit 31. -/
theorem getLsbD_shiftRightSigned_vacated (v : Word) {j k : Nat} (hvacated : 32 - j ≤ k) (hk : k < 32) :
    (shiftRightSigned v j).getLsbD k = v.getLsbD 31 := by
  rw [shiftRightSigned, BitVec.getLsbD_sshiftRight, if_neg (by omega), BitVec.msb_eq_getLsbD_last]
  simp [hk]

/-! ## The execution of a shift -/

/-- Whether its value is given or free, a destination is written and only it: memory and the parameters stay. -/
theorem writeDestOrAny_spec (s : State) (rA : Reg) (result : Option Word) :
    ∃ t, writeDestOrAny s rA result = .next t ∧ (∀ v, result = some v → t.reg rA = v) ∧
      State.SameRegsBut rA s t ∧ State.SameMem s t ∧ t.cfg = s.cfg := by
  rcases writeDestOrAny_cases s rA result with ⟨v, hv, hnext⟩ | ⟨hnone, hnext⟩
  case inl =>
    refine ⟨_, hnext, fun w hw => ?_, fun q hq => s.reg_setReg_ne rA q v hq, fun _ => rfl, rfl⟩
    rw [State.reg_setReg_self]
    exact Option.some.inj (hv.symm.trans hw)
  case inr =>
    refine ⟨_, hnext, fun w hw => ?_, fun q hq => s.countDraw.reg_setReg_ne rA q _ hq, fun _ => rfl, rfl⟩
    cases hnone.symm.trans hw

/-- What `lsh` and `ash` share: all but the meaning of the shift to the right. -/
theorem shift_spec (right : Word → Nat → Word) (s : State) (rA rB rC : Reg) :
    ∃ t, writeDestOrAny s rA (shifted right (s.source rB) (shiftAmount (s.source rC))) = .next t ∧
      (∀ n : Int, n = (s.reg rC).toInt →
        (1 ≤ n → n ≤ 31 → (t.reg rA).toNat = (s.reg rB).toNat * 2 ^ n.toNat % 2 ^ 32) ∧
        (n = 0 → t.reg rA = s.reg rB) ∧
        (-31 ≤ n → n ≤ -1 → t.reg rA = right (s.reg rB) (-n).toNat)) ∧
      State.SameRegsBut rA s t ∧ State.SameMem s t ∧ t.cfg = s.cfg := by
  obtain ⟨t, hnext, hvalue, hframe⟩ :=
    writeDestOrAny_spec s rA (shifted right (s.source rB) (shiftAmount (s.source rC)))
  refine ⟨t, hnext, fun n hn => ?_, hframe⟩
  have hresult : ∀ v, shifted right (s.reg rB) n = some v → t.reg rA = v := hn ▸ hvalue
  refine ⟨fun hlow hhigh => ?left, fun hzero => ?zero, fun hlow hhigh => ?right⟩
  case left => rw [hresult _ (shifted_of_pos right _ hlow hhigh), BitVec.toNat_shiftLeft, Nat.shiftLeft_eq]
  case zero => exact hresult _ (hzero ▸ shifted_zero right _)
  case right => exact hresult _ (shifted_of_neg right _ hlow hhigh)

/-! ## The obligations -/

/-- Settles O19: the shift to the right is the quotient of the unsigned value. -/
theorem lshShiftsByTheSignedAmount : Obligations.LshShiftsByTheSignedAmount := by
  unfold Obligations.LshShiftsByTheSignedAmount
  intro s rA rB rC
  obtain ⟨t, hnext, hvalue, hframe⟩ := shift_spec shiftRightUnsigned s rA rB rC
  refine ⟨toNat_toWord_encodeABC 0x07 rA rB rC, t, hnext, fun n hn => ?_, hframe⟩
  obtain ⟨hleft, hzero, hright⟩ := hvalue n hn
  refine ⟨hleft, hzero, fun hlow hhigh => ?_⟩
  rw [hright hlow hhigh, toNat_shiftRightUnsigned]

/-- Settles O20: the shift to the right is the floor of the signed quotient, and the bits it vacates copy bit 31. -/
theorem ashShiftsByTheSignedAmount : Obligations.AshShiftsByTheSignedAmount := by
  unfold Obligations.AshShiftsByTheSignedAmount
  intro s rA rB rC
  obtain ⟨t, hnext, hvalue, hframe⟩ := shift_spec shiftRightSigned s rA rB rC
  refine ⟨toNat_toWord_encodeABC 0x08 rA rB rC, t, hnext, fun n hn => ?_, hframe⟩
  obtain ⟨hleft, hzero, hright⟩ := hvalue n hn
  refine ⟨hleft, hzero, fun hlow hhigh => ?_⟩
  rw [hright hlow hhigh]
  exact ⟨toInt_shiftRightSigned _ _, fun _ hvacated hk => getLsbD_shiftRightSigned_vacated _ hvacated hk⟩

end Sys2Proof.Machine
end

section
/-! PROOFS. `tcu` and `tcs` (42_compare.md R85, R86): what an instruction with two sources leaves unchanged, and the sign that a
comparison stores, whichever exact difference it takes. -/

namespace Sys2Proof.Machine

/-- An instruction with two register sources always goes on: its destination is written, and only it. -/
theorem binary_spec (f : Word → Word → Word) (s : State) (rA rB rC : Reg) :
    ∃ t, binary f rA rB rC s = .next t ∧ t.reg rA = f (s.reg rB) (s.reg rC) ∧
      State.SameRegsBut rA s t ∧ State.SameMem s t ∧ State.SameRest s t :=
  ⟨_, rfl, s.reg_setReg_self rA _, fun q hq => s.reg_setReg_ne rA q _ hq, fun _ => rfl, rfl, rfl⟩

/-- What `tcu` and `tcs` share: all but the reading of the two registers that the difference is taken of. -/
theorem compare_spec (difference : Word → Word → Int) (s : State) (rA rB rC : Reg) :
    ∃ t, binary (fun x y => signWord s.cfg (difference x y)) rA rB rC s = .next t ∧
      (difference (s.reg rB) (s.reg rC) < 0 → t.reg rA = s.cfg.signNeg) ∧
      (difference (s.reg rB) (s.reg rC) = 0 → t.reg rA = s.cfg.signZero) ∧
      (0 < difference (s.reg rB) (s.reg rC) → t.reg rA = s.cfg.signPos) ∧
      State.SameRegsBut rA s t ∧ State.SameMem s t ∧ State.SameRest s t := by
  obtain ⟨t, hnext, hvalue, hframe⟩ := binary_spec (fun x y => signWord s.cfg (difference x y)) s rA rB rC
  exact ⟨t, hnext, fun h => hvalue.trans (signWord_of_neg s.cfg h), fun h => hvalue.trans (signWord_of_zero s.cfg h),
    fun h => hvalue.trans (signWord_of_pos s.cfg h), hframe⟩

/-! ## The sign of a difference is the order of its operands -/

theorem unsignedDifference_neg_iff {x y : Word} : unsignedDifference x y < 0 ↔ x.toNat < y.toNat :=
  sub_lt_zero.trans Int.ofNat_lt

theorem unsignedDifference_eq_zero_iff {x y : Word} : unsignedDifference x y = 0 ↔ x.toNat = y.toNat :=
  sub_eq_zero.trans Int.ofNat_inj

theorem unsignedDifference_pos_iff {x y : Word} : 0 < unsignedDifference x y ↔ y.toNat < x.toNat :=
  sub_pos.trans Int.ofNat_lt

theorem signedDifference_neg_iff {x y : Word} : signedDifference x y < 0 ↔ x.toInt < y.toInt := sub_lt_zero

theorem signedDifference_eq_zero_iff {x y : Word} : signedDifference x y = 0 ↔ x.toInt = y.toInt := sub_eq_zero

theorem signedDifference_pos_iff {x y : Word} : 0 < signedDifference x y ↔ y.toInt < x.toInt := sub_pos

/-! ## The obligations -/

/-- Settles O23: the sign of the unsigned difference is the unsigned order of the two registers. -/
theorem tcuStoresTheSignOfTheUnsignedDifference : Obligations.TcuStoresTheSignOfTheUnsignedDifference := by
  unfold Obligations.TcuStoresTheSignOfTheUnsignedDifference
  intro s rA rB rC
  obtain ⟨t, hnext, hneg, hzero, hpos, hframe⟩ := compare_spec unsignedDifference s rA rB rC
  exact ⟨toNat_toWord_encodeABC 0x09 rA rB rC, t, hnext, fun hbelow => hneg (unsignedDifference_neg_iff.2 hbelow),
    fun hequal => hzero (unsignedDifference_eq_zero_iff.2 hequal),
    fun habove => hpos (unsignedDifference_pos_iff.2 habove), hframe⟩

/-- Settles O24: the sign of the signed difference is the signed order of the two registers. -/
theorem tcsStoresTheSignOfTheSignedDifference : Obligations.TcsStoresTheSignOfTheSignedDifference := by
  unfold Obligations.TcsStoresTheSignOfTheSignedDifference
  intro s rA rB rC
  obtain ⟨t, hnext, hneg, hzero, hpos, hframe⟩ := compare_spec signedDifference s rA rB rC
  exact ⟨toNat_toWord_encodeABC 0x0A rA rB rC, t, hnext, fun hbelow => hneg (signedDifference_neg_iff.2 hbelow),
    fun hequal => hzero (signedDifference_eq_zero_iff.2 hequal),
    fun habove => hpos (signedDifference_pos_iff.2 habove), hframe⟩

end Sys2Proof.Machine
end

section
/-! PROOFS. `set` and `mov` (43_move.md R90, R91): the bits of a sign-extended immediate, the words of format `op rA rB` up to the
byte it ignores, and what a write of a destination leaves unchanged. -/

namespace Sys2Proof

/-! ## The words -/

/-- Format `op rA imm`: the immediate is the upper half of the word (R51). -/
theorem toNat_toWord_encodeAImm (op : Byte) (rA : Reg) (imm : Imm16) :
    (encodeAImm op rA imm).toWord.toNat = op.toNat + 2 ^ 8 * rA.val + 2 ^ 16 * imm.toNat := by
  simp only [Fields.toNat_toWord, encodeAImm, encodeReg_toNat, BitVec.extractLsb'_toNat, Nat.shiftRight_eq_div_pow]
  omega

/-- The mask of format `op rA rB` clears field `C` and keeps the others (R53). -/
theorem Fields.toWord_and_low24 (f : Fields) : f.toWord &&& 0x00FFFFFF = Fields.toWord { f with C := 0 } := by
  have hmasked : (f.C ++ f.B ++ f.A ++ f.op) &&& (0#8 ++ BitVec.allOnes 8 ++ BitVec.allOnes 8 ++ BitVec.allOnes 8) =
      0#8 ++ f.B ++ f.A ++ f.op := by
    simp only [BitVec.and_append, BitVec.and_zero, BitVec.and_allOnes]
  exact hmasked

/-- A word that is an `op rA rB` encoding in its low 24 bits has that encoding's fields, and any field `C`. -/
theorem Fields.ofWord_of_and_low24_eq_encodeAB {w : Word} {op : Byte} {rA rB : Reg}
    (h : w &&& 0x00FFFFFF = (encodeAB op rA rB).toWord) :
    Fields.ofWord w = { encodeAB op rA rB with C := (Fields.ofWord w).C } := by
  have hword : Fields.toWord { Fields.ofWord w with C := 0 } = (encodeAB op rA rB).toWord := by
    rw [← Fields.toWord_and_low24, Fields.toWord_ofWord, h]
  have hfields : { Fields.ofWord w with C := 0 } = encodeAB op rA rB := by
    simpa only [Fields.ofWord_toWord] using congrArg Fields.ofWord hword
  rw [← hfields]

/-- Decoding format `op rA rB` reads no field `C` (R53). -/
theorem decodeAB_encodeAB (op : Byte) (rA rB : Reg) (c : Byte) (mk : Reg → Reg → Instr) :
    decodeAB { encodeAB op rA rB with C := c } mk = .ok (mk rA rB) := by
  simp [decodeAB, encodeAB]

theorem decode_eq_mov_of_and_low24 {w : Word} {rA rB : Reg} (h : w &&& 0x00FFFFFF = encode (.mov rA rB)) :
    decode w = .ok (.mov rA rB) := by
  rw [decode, Fields.ofWord_of_and_low24_eq_encodeAB h]
  exact decodeAB_encodeAB 0x0C rA rB _ .mov

end Sys2Proof

namespace Sys2Proof.Machine

/-! ## The immediate -/

theorem toInt_immediate (imm : Imm16) : (immediate imm).toInt = imm.toInt :=
  BitVec.toInt_signExtend_of_le (by decide)

theorem getLsbD_immediate_low (imm : Imm16) {k : Nat} (hk : k < 16) : (immediate imm).getLsbD k = imm.getLsbD k := by
  have hword : k < 32 := by omega
  rw [immediate, BitVec.getLsbD_signExtend]
  simp [hk, hword]

/-- The upper half of a sign-extended immediate copies its bit 15. -/
theorem getLsbD_immediate_high (imm : Imm16) {k : Nat} (hlow : 16 ≤ k) (hk : k < 32) :
    (immediate imm).getLsbD k = imm.getLsbD 15 := by
  have hupper : ¬ k < 16 := by omega
  rw [immediate, BitVec.getLsbD_signExtend, if_neg hupper, BitVec.msb_eq_getLsbD_last]
  simp [hk]

/-! ## The execution -/

/-- A write of a destination always goes on: it holds the value, and nothing else changes. -/
theorem writeDest_spec (s : State) (rA : Reg) (v : Word) :
    ∃ t, writeDest s rA v = .next t ∧ t.reg rA = v ∧
      State.SameRegsBut rA s t ∧ State.SameMem s t ∧ State.SameRest s t :=
  ⟨_, rfl, s.reg_setReg_self rA v, fun q hq => s.reg_setReg_ne rA q v hq, fun _ => rfl, rfl, rfl⟩

/-! ## The obligations -/

/-- Settles O26: the destination holds the sign-extended immediate, whose bits are known. -/
theorem setStoresTheSignExtendedImmediate : Obligations.SetStoresTheSignExtendedImmediate := by
  unfold Obligations.SetStoresTheSignExtendedImmediate
  intro s rA imm
  obtain ⟨t, hnext, hvalue, hframe⟩ := writeDest_spec s rA (immediate imm)
  refine ⟨toNat_toWord_encodeAImm 0x0B rA imm, t, hnext, ?_⟩
  rw [hvalue]
  exact ⟨toInt_immediate imm, fun _ hk => getLsbD_immediate_low imm hk, fun _ hlow hk => getLsbD_immediate_high imm hlow hk,
    hframe⟩

/-- Settles O27: the destination holds the source's value, so the source keeps it even where it is the destination. -/
theorem movCopiesTheRegister : Obligations.MovCopiesTheRegister := by
  unfold Obligations.MovCopiesTheRegister
  intro s rA rB
  obtain ⟨t, hnext, hcopied, hothers, hframe⟩ := writeDest_spec s rA (s.reg rB)
  have hsource : t.reg rB = s.reg rB := by
    by_cases hsame : rB = rA
    · exact hsame ▸ hcopied
    · exact hothers rB hsame
  exact ⟨toNat_toWord_encodeAB 0x0C rA rB, fun _ hword => decode_eq_mov_of_and_low24 hword, t, hnext, hcopied, hsource,
    hothers, hframe⟩

end Sys2Proof.Machine
end

section
/-! PROOFS. `ldw`, `stw`, `ldb` and `stb` (44_load_store.md R95 to R98): the faults of a data access in their order, the bytes of a
word that is loaded or stored, and what each instruction leaves unchanged. -/

namespace Sys2Proof.Machine

/-- R115: a run takes no state from a step that faults. -/
theorem faultVoidsTheStep : FaultVoidsTheStep := by
  intro s f hfault
  simp [Run.start, Run.advance, hfault]

/-! ## The faults of a data access -/

theorem dataAccess_of_misaligned {s : State} (kind : AccessKind) {addr : Word} (after : State)
    (hm : s.cfg.misalignedOk = false) (ha : addr.toNat % 4 ≠ 0) :
    dataAccess s kind .word addr after = .fault (.misalignedAccess addr kind (s.pc - 4)) := by
  have h := (misaligned_word_eq_true_iff s.cfg addr).2 ⟨hm, ha⟩
  simp [dataAccess, dataFault?, raise, State.currentAddr, h]

theorem dataAccess_of_reportedUnbacked {s : State} (kind : AccessKind) {w : Width} {addr b : Word} (after : State)
    (ha : misaligned s.cfg w addr = false) (hb : reportedUnbacked? s.cfg w addr = some b) :
    dataAccess s kind w addr after = .fault (.accessFault b kind (s.pc - 4)) := by
  simp [dataAccess, dataFault?, raise, State.currentAddr, ha, hb]

/-- The faults of a word access: alignment first, then an unbacked byte, which is known where the spec's answers agree. -/
theorem dataAccess_word_faults (s : State) (kind : AccessKind) (addr : Word) (after : State) :
    (s.cfg.misalignedOk = false → addr.toNat % 4 ≠ 0 →
      dataAccess s kind .word addr after = .fault (.misalignedAccess addr kind (s.pc - 4))) ∧
    (s.WordAligned addr → ¬ s.BackedFrom addr 4 → ∃ b ∈ touched .word addr, Config.isBacked s.cfg b = false ∧
      dataAccess s kind .word addr after = .fault (.accessFault b kind (s.pc - 4))) ∧
    (s.WordAligned addr → ∀ k, k < 4 → s.Hole addr k →
      dataAccess s kind .word addr after = .fault (.accessFault (addr + BitVec.ofNat 32 k) kind (s.pc - 4))) := by
  refine ⟨dataAccess_of_misaligned kind after, fun ha hb => ?unbacked, fun ha k hk hh => ?hole⟩
  case unbacked =>
    obtain ⟨b, htouched, hunbacked, hreported⟩ := exists_reportedUnbacked (w := .word) hb
    have haligned := (misaligned_word_eq_false_iff s.cfg addr).2 ha
    exact ⟨b, htouched, hunbacked, dataAccess_of_reportedUnbacked kind after haligned hreported⟩
  case hole =>
    have haligned := (misaligned_word_eq_false_iff s.cfg addr).2 ha
    exact dataAccess_of_reportedUnbacked kind after haligned (reportedUnbacked?_of_hole hk hh)

@[simp] theorem mem_touched_byte_iff {addr b : Word} : b ∈ touched .byte addr ↔ b = addr := by
  simp [touched, Width.bytes]

/-- A byte access has no alignment (R38): it faults at its own address when that is unbacked. -/
theorem dataAccess_byte_of_unbacked {s : State} (kind : AccessKind) {addr : Word} (after : State)
    (hb : Config.isBacked s.cfg addr = false) :
    dataAccess s kind .byte addr after = .fault (.accessFault addr kind (s.pc - 4)) := by
  have hreported : reportedUnbacked? s.cfg .byte addr = some addr := by
    obtain ⟨b, htouched, -, hreported⟩ := exists_reportedUnbacked (c := s.cfg) (w := .byte) (addr := addr) fun hall => by
      simpa [hb] using hall 0 (by decide)
    rwa [mem_touched_byte_iff.1 htouched] at hreported
  exact dataAccess_of_reportedUnbacked kind after (misaligned_byte _ _) hreported

/-! ## Stores that go on -/

theorem exec_stw_of_backed {s : State} {rA : Reg} (rB : Reg) (ha : s.WordAligned (s.reg rA))
    (hb : s.BackedFrom (s.reg rA) 4) : exec (.stw rA rB) s = .next (s.setWord (s.reg rA) (s.reg rB)) :=
  dataAccess_of_admitted _ ((dataFault?_word_eq_none_iff s .store _).2 ⟨ha, hb⟩)

theorem exec_stb_of_backed {s : State} {rA : Reg} (rB : Reg) (hb : Config.isBacked s.cfg (s.reg rA) = true) :
    exec (.stb rA rB) s = .next (s.setByte (s.reg rA) ((s.reg rB).extractLsb' 0 8)) :=
  dataAccess_of_admitted _ ((dataFault?_byte_eq_none_iff s .store _).2 hb)

/-! ## The bytes of a word -/

/-- A word's bytes in memory are its fields, lowest address first (R32, R33). -/
theorem extractLsb'_wordAt (s : State) (a : Word) :
    (s.wordAt a).extractLsb' 0 8 = s.byteAt a ∧ (s.wordAt a).extractLsb' 8 8 = s.byteAt (a + 1) ∧
      (s.wordAt a).extractLsb' 16 8 = s.byteAt (a + 2) ∧ (s.wordAt a).extractLsb' 24 8 = s.byteAt (a + 3) :=
  Fields.mk.inj (ofWord_wordAt s a)

/-- Loading a stored word gives it back, so the bytes at its address are its own (R34). -/
theorem byteAt_setWord_offsets (s : State) (a v : Word) :
    (s.setWord a v).byteAt a = v.extractLsb' 0 8 ∧ (s.setWord a v).byteAt (a + 1) = v.extractLsb' 8 8 ∧
      (s.setWord a v).byteAt (a + 2) = v.extractLsb' 16 8 ∧ (s.setWord a v).byteAt (a + 3) = v.extractLsb' 24 8 := by
  obtain ⟨h0, h1, h2, h3⟩ := extractLsb'_wordAt (s.setWord a v) a
  rw [State.wordAt_setWord] at h0 h1 h2 h3
  exact ⟨h0.symm, h1.symm, h2.symm, h3.symm⟩

@[simp] theorem extractLsb'_mergeByte_high (old : Word) (b : Byte) :
    (mergeByte old b).extractLsb' 8 24 = old.extractLsb' 8 24 :=
  BitVec.extractLsb'_append_eq_left

/-! ## The obligations -/

/-- Settles O28: an admitted `ldw` is a write of its destination, with the word of the four bytes. -/
theorem ldwLoadsAWord : Obligations.LdwLoadsAWord := by
  unfold Obligations.LdwLoadsAWord
  refine ⟨faultVoidsTheStep, fun s rA rB => ?_⟩
  obtain ⟨hmisaligned, hunbacked, hhole⟩ :=
    dataAccess_word_faults s .load (s.reg rB) (s.setReg rA (s.wordAt (s.reg rB)))
  refine ⟨toNat_toWord_encodeAB 0x0D rA rB, hmisaligned, hunbacked, hhole, fun ha hb => ?admitted⟩
  case admitted =>
    obtain ⟨t, hnext, hvalue, hframe⟩ := writeDest_spec s rA (s.wordAt (s.reg rB))
    obtain ⟨h0, h1, h2, h3⟩ := extractLsb'_wordAt s (s.reg rB)
    rw [← hvalue] at h0 h1 h2 h3
    exact ⟨t, (exec_ldw_of_backed rA ha hb).trans hnext, h0, h1, h2, h3, hframe⟩

/-- Settles O29: an admitted `stw` puts the four bytes of its source at the address, and no other byte changes. -/
theorem stwStoresAWord : Obligations.StwStoresAWord := by
  unfold Obligations.StwStoresAWord
  refine ⟨faultVoidsTheStep, fun s rA rB => ?_⟩
  obtain ⟨hmisaligned, hunbacked, hhole⟩ :=
    dataAccess_word_faults s .store (s.effectiveAddr rA) (s.setWord (s.effectiveAddr rA) (s.reg rB))
  refine ⟨toNat_toWord_encodeAB 0x0E rA rB, hmisaligned, hunbacked, hhole, fun ha hb => ?admitted⟩
  case admitted =>
    obtain ⟨h0, h1, h2, h3⟩ := byteAt_setWord_offsets s (s.effectiveAddr rA) (s.reg rB)
    exact ⟨_, exec_stw_of_backed rB ha hb, h0, h1, h2, h3, fun _ hout => s.byteAt_setWord_outside _ hout,
      fun _ => rfl, rfl, rfl⟩

/-- Settles O30: an admitted `ldb` is a write of its destination, with the merge of its old value and the byte. -/
theorem ldbMergesAByte : Obligations.LdbMergesAByte := by
  unfold Obligations.LdbMergesAByte
  refine ⟨faultVoidsTheStep, fun s rA rB =>
    ⟨toNat_toWord_encodeAB 0x0F rA rB, dataAccess_byte_of_unbacked .load _, fun hb => ?admitted⟩⟩
  case admitted =>
    obtain ⟨t, hnext, hvalue, hframe⟩ := writeDest_spec s rA (mergeByte (s.reg rA) (s.byteAt (s.reg rB)))
    refine ⟨t, (exec_ldb_of_backed rA hb).trans hnext, ?_⟩
    rw [hvalue]
    exact ⟨extractLsb'_mergeByte_low _ _, extractLsb'_mergeByte_high _ _, hframe⟩

/-- Settles O31: an admitted `stb` changes the one byte that a byte access touches. -/
theorem stbStoresAByte : Obligations.StbStoresAByte := by
  unfold Obligations.StbStoresAByte
  refine ⟨faultVoidsTheStep, fun s rA rB =>
    ⟨toNat_toWord_encodeAB 0x10 rA rB, dataAccess_byte_of_unbacked .store _, fun hb => ?admitted⟩⟩
  case admitted =>
    exact ⟨_, exec_stb_of_backed rB hb, s.byteAt_setByte_self _ _,
      fun _ hout => s.byteAt_setByte_ne _ (hout ∘ mem_touched_byte_iff.2), fun _ => rfl, rfl, rfl⟩

end Sys2Proof.Machine
end

section
/-! PROOFS. Control transfer (45_control_transfer.md R100): which register an instruction can change, and where its number stands
in the instruction's word. -/

namespace Sys2Proof

/-! ## The destination in the word -/

theorem encodeReg_inj {r q : Reg} : encodeReg r = encodeReg q ↔ r = q := by
  refine ⟨fun h => ?_, congrArg encodeReg⟩
  simpa using congrArg (decodeReg .fieldA) h

theorem extractLsb'_encode_fieldA (i : Instr) : (encode i).extractLsb' 8 8 = (encodeFields i).A :=
  congrArg Fields.A (Fields.ofWord_toWord (encodeFields i))

/-- The 17 instructions: 3 have no destination, and the other 14 name theirs in field `A`. -/
theorem Instr.dest?_cases (i : Instr) :
    (i.dest? = none ∧ i.mnemonic ∈ ["nop", "stw", "stb"]) ∨
    ∃ rA, i.dest? = some rA ∧ i.mnemonic ∉ ["nop", "stw", "stb"] ∧ (encodeFields i).A = encodeReg rA := by
  cases i
  case nop | stw | stb => exact .inl ⟨rfl, by simp [Instr.mnemonic]⟩
  all_goals exact .inr ⟨_, rfl, by simp [Instr.mnemonic], rfl⟩

theorem Instr.dest?_eq_some_iff (i : Instr) (r : Reg) :
    i.dest? = some r ↔ i.mnemonic ∉ ["nop", "stw", "stb"] ∧ (encode i).extractLsb' 8 8 = encodeReg r := by
  rw [extractLsb'_encode_fieldA]
  rcases i.dest?_cases with ⟨hdest, hmnemonic⟩ | ⟨rA, hdest, hmnemonic, hfield⟩
  · exact ⟨fun h => (Option.some_ne_none r (h.symm.trans hdest)).elim, fun h => absurd hmnemonic h.1⟩
  · rw [hdest, hfield, encodeReg_inj, Option.some_inj]
    exact (and_iff_right hmnemonic).symm

end Sys2Proof

namespace Sys2Proof.Machine

/-! ## The registers after a step -/

/-- No effect changes a register other than the destination. -/
theorem Effect.reg_eq_of_dest?_ne {i : Instr} {s t : State} (h : Effect i s t) {q : Reg} (hq : i.dest? ≠ some q) :
    t.reg q = s.reg q := by
  have hother {r : Reg} (hr : i.dest? = some r) : q ≠ r := fun hsame => hq (hsame ▸ hr)
  cases h with
  | nothing => rfl
  | register r v hdest => exact s.reg_setReg_ne r q v (hother hdest)
  | free rA rB rC hshift =>
    have hdest : i.dest? = some rA := by rcases hshift with rfl | rfl <;> rfl
    exact s.countDraw.reg_setReg_ne rA q _ (hother hdest)
  | word => exact s.reg_setWord q _ _
  | byte => exact s.reg_setByte q _ _

/-- A register that is not the destination reads after a step as it did during execution: `x[0]` as `a + 4`, any other as before
(R104). -/
theorem step_reg_eq_during {s t : State} (h : step s = .next t) :
    ∃ i, s.AtPc i ∧ ∀ q : Reg, i.dest? ≠ some q → t.reg q = s.during q := by
  obtain ⟨i, -, -, hdecode, hexec⟩ := step_eq_next h
  exact ⟨i, hdecode, fun q hq => ((exec_effect hexec).reg_eq_of_dest?_ne hq).trans (s.reg_advancePc q)⟩

/-! ## The obligation -/

/-- Settles O32: a step changes no register but `x[0]`, which it advances, and the destination of the instruction it runs. -/
theorem controlTransfersOnlyByWritingThePc : Obligations.ControlTransfersOnlyByWritingThePc := by
  unfold Obligations.ControlTransfersOnlyByWritingThePc
  refine ⟨fun s t hstep => ?registers, fun t hfetch => ?next_fetch, Instr.dest?_eq_some_iff⟩
  case registers =>
    obtain ⟨i, hdecode, hkept⟩ := step_reg_eq_during hstep
    exact ⟨i, hdecode, fun hdest => (hkept Reg.pc hdest).trans (if_pos rfl),
      fun q hq hdest => (hkept q hdest).trans (if_neg hq)⟩
  case next_fetch =>
    obtain ⟨-, haligned, hbacked⟩ := hfetch
    exact ⟨t.wordAt t.pc, fetchWord_of_backed haligned hbacked, extractLsb'_wordAt t t.pc⟩

end Sys2Proof.Machine
end

section
/-! PROOFS. Encoding and decoding (30_encoding.md R53 to R59): what the decoder answers by format, and that a word is an
instruction exactly when the fields the format uses are the instruction's. -/

namespace Sys2Proof

/-! ## The decoder, by format -/

/-- The fields of a word with zeros in those the instruction's format ignores (R53, R54). -/
def Instr.usedFields : Instr → Fields → Fields
  | .nop, f => encodeOp f.op
  | .not _ _, f | .mov _ _, f | .ldw _ _, f | .stw _ _, f | .ldb _ _, f | .stb _ _, f => { f with C := 0 }
  | .add _ _ _, f | .sub _ _ _, f | .and _ _ _, f | .orr _ _ _, f | .xor _ _ _, f | .lsh _ _ _, f | .ash _ _ _, f
  | .tcu _ _ _, f | .tcs _ _ _, f | .set _ _, f => f

/-- `mk` makes instructions whose words are those of format `op rA imm` with this opcode. -/
def MakesAImm (op : Byte) (mk : Reg → Imm16 → Instr) : Prop :=
  ∀ rA imm, encodeFields (mk rA imm) = encodeAImm op rA imm ∧ ∀ f, (mk rA imm).usedFields f = f

/-- `mk` makes instructions whose words are those of format `op rA rB` with this opcode. -/
def MakesAB (op : Byte) (mk : Reg → Reg → Instr) : Prop :=
  ∀ rA rB, encodeFields (mk rA rB) = encodeAB op rA rB ∧ ∀ f, (mk rA rB).usedFields f = { f with C := 0 }

/-- `mk` makes instructions whose words are those of format `op rA rB rC` with this opcode. -/
def MakesABC (op : Byte) (mk : Reg → Reg → Reg → Instr) : Prop :=
  ∀ rA rB rC, encodeFields (mk rA rB rC) = encodeABC op rA rB rC ∧ ∀ f, (mk rA rB rC).usedFields f = f

/-- Everything the decoder can do, by the format its opcode selects (R58, R59). The cases of the proof are the arms of
`decodeFields` in their order, grouped by format. -/
theorem decodeFields_cases (f : Fields) :
    (Format.ofOpcode f.op = none ∧ decodeFields f = .error (.unassignedOpcode f.op)) ∨
    (Format.ofOpcode f.op = some .op ∧ f.op = 0 ∧ decodeFields f = .ok .nop) ∨
    (Format.ofOpcode f.op = some .opAImm ∧ ∃ mk, MakesAImm f.op mk ∧ decodeFields f = decodeAImm f mk) ∨
    (Format.ofOpcode f.op = some .opAB ∧ ∃ mk, MakesAB f.op mk ∧ decodeFields f = decodeAB f mk) ∨
    (Format.ofOpcode f.op = some .opABC ∧ ∃ mk, MakesABC f.op mk ∧ decodeFields f = decodeABC f mk) := by
  obtain ⟨op, a, b, c⟩ := f
  unfold decodeFields
  split
  case h_18 => exact .inl ⟨by simp [Format.ofOpcode, *], rfl⟩
  all_goals
    rename_i hop
    obtain rfl := (BitVec.toNat_eq_nat.1 hop).2
  case h_1 => exact .inr (.inl ⟨rfl, rfl, rfl⟩)
  case h_12 => exact .inr (.inr (.inl ⟨rfl, _, fun _ _ => ⟨rfl, fun _ => rfl⟩, rfl⟩))
  case h_7 | h_13 | h_14 | h_15 | h_16 | h_17 =>
    exact .inr (.inr (.inr (.inl ⟨rfl, _, fun _ _ => ⟨rfl, fun _ => rfl⟩, rfl⟩)))
  all_goals exact .inr (.inr (.inr (.inr ⟨rfl, _, fun _ _ _ => ⟨rfl, fun _ => rfl⟩, rfl⟩)))

/-! ## A word is an instruction exactly when its used fields are the instruction's -/

theorem eq_encodeAImm_of_decodeAImm {f : Fields} {mk : Reg → Imm16 → Instr} {i : Instr} (h : decodeAImm f mk = .ok i) :
    ∃ rA, i = mk rA f.imm16 ∧ f = encodeAImm f.op rA f.imm16 := by
  obtain ⟨rA, hA, hi⟩ := decodeAImm_eq_ok h
  exact ⟨rA, hi, by simp [encodeAImm, decodeReg_eq_ok hA]⟩

theorem eq_encodeAB_of_decodeAB {f : Fields} {mk : Reg → Reg → Instr} {i : Instr} (h : decodeAB f mk = .ok i) :
    ∃ rA rB, i = mk rA rB ∧ { f with C := 0 } = encodeAB f.op rA rB := by
  obtain ⟨rA, rB, hA, hB, hi⟩ := decodeAB_eq_ok h
  exact ⟨rA, rB, hi, by simp [encodeAB, decodeReg_eq_ok hA, decodeReg_eq_ok hB]⟩

theorem eq_encodeABC_of_decodeABC {f : Fields} {mk : Reg → Reg → Reg → Instr} {i : Instr} (h : decodeABC f mk = .ok i) :
    ∃ rA rB rC, i = mk rA rB rC ∧ f = encodeABC f.op rA rB rC := by
  obtain ⟨rA, rB, rC, hA, hB, hC, hi⟩ := decodeABC_eq_ok h
  exact ⟨rA, rB, rC, hi, by simp [encodeABC, decodeReg_eq_ok hA, decodeReg_eq_ok hB, decodeReg_eq_ok hC]⟩

theorem usedFields_eq_of_decodeFields {f : Fields} {i : Instr} (h : decodeFields f = .ok i) :
    i.usedFields f = encodeFields i := by
  rcases decodeFields_cases f with ⟨-, hd⟩ | ⟨-, hop, hd⟩ | ⟨-, mk, hmk, hd⟩ | ⟨-, mk, hmk, hd⟩ | ⟨-, mk, hmk, hd⟩ <;>
    rw [hd] at h
  · cases h
  · obtain rfl := Except.ok.inj h
    exact congrArg encodeOp hop
  · obtain ⟨rA, rfl, hf⟩ := eq_encodeAImm_of_decodeAImm h
    rw [(hmk _ _).1, (hmk _ _).2, ← hf]
  · obtain ⟨rA, rB, rfl, hf⟩ := eq_encodeAB_of_decodeAB h
    rw [(hmk _ _).1, (hmk _ _).2, ← hf]
  · obtain ⟨rA, rB, rC, rfl, hf⟩ := eq_encodeABC_of_decodeABC h
    rw [(hmk _ _ _).1, (hmk _ _ _).2, ← hf]

theorem decodeAImm_encodeAImm (op : Byte) (rA : Reg) (imm : Imm16) (mk : Reg → Imm16 → Instr) :
    decodeAImm (encodeAImm op rA imm) mk = .ok (mk rA imm) := by
  have himm : (encodeAImm op rA imm).imm16 = imm := (BitVec.extractLsb'_append_extractLsb'_eq_extractLsb' rfl).trans
    BitVec.extractLsb'_eq_self
  have hA : (encodeAImm op rA imm).A = encodeReg rA := rfl
  simp [decodeAImm, himm, hA]

theorem decodeABC_encodeABC (op : Byte) (rA rB rC : Reg) (mk : Reg → Reg → Reg → Instr) :
    decodeABC (encodeABC op rA rB rC) mk = .ok (mk rA rB rC) := by
  simp [decodeABC, encodeABC]

/-- A word of format `op rA rB` is known up to the field it ignores. -/
theorem eq_of_clear_C_eq {f g : Fields} (h : { f with C := 0 } = g) : f = { g with C := f.C } := by
  subst h
  rfl

theorem decodeFields_of_usedFields_eq {f : Fields} {i : Instr} (h : i.usedFields f = encodeFields i) :
    decodeFields f = .ok i := by
  cases i
  case nop => rw [decodeFields, show f.op = 0 from congrArg Fields.op h]; rfl
  case set rA imm => rw [show f = _ from h]; exact decodeAImm_encodeAImm _ _ _ _
  case not | mov | ldw | stw | ldb | stb => rw [eq_of_clear_C_eq h]; exact decodeAB_encodeAB _ _ _ _ _
  all_goals rw [show f = _ from h]; exact decodeABC_encodeABC _ _ _ _ _

theorem decodeFields_eq_ok_iff {f : Fields} {i : Instr} : decodeFields f = .ok i ↔ i.usedFields f = encodeFields i :=
  ⟨usedFields_eq_of_decodeFields, decodeFields_of_usedFields_eq⟩

theorem Fields.toWord_inj {f g : Fields} : f.toWord = g.toWord ↔ f = g :=
  ⟨fun h => by simpa using congrArg Fields.ofWord h, congrArg Fields.toWord⟩

theorem Fields.toWord_and (f g : Fields) :
    f.toWord &&& g.toWord = Fields.toWord ⟨f.op &&& g.op, f.A &&& g.A, f.B &&& g.B, f.C &&& g.C⟩ := by
  have hbytes : (f.C ++ f.B ++ f.A ++ f.op) &&& (g.C ++ g.B ++ g.A ++ g.op) =
      (f.C &&& g.C) ++ (f.B &&& g.B) ++ (f.A &&& g.A) ++ (f.op &&& g.op) := by
    simp only [BitVec.and_append]
  exact hbytes

/-- The mask of format `op` keeps the opcode only (R53). -/
theorem Fields.toWord_and_low8 (f : Fields) : f.toWord &&& 0x000000FF = (encodeOp f.op).toWord := by
  have hop : f.op &&& 0xFF#8 = f.op := BitVec.and_allOnes
  have hbytes := f.toWord_and ⟨0xFF, 0, 0, 0⟩
  simp only [BitVec.ofNat_eq_ofNat, BitVec.and_zero, hop] at hbytes
  exact hbytes

/-- The used bits of a word are the used fields. -/
theorem Fields.toWord_and_usedBits (f : Fields) (i : Instr) : f.toWord &&& i.usedBits = (i.usedFields f).toWord := by
  cases i
  case nop => exact f.toWord_and_low8
  case not | mov | ldw | stw | ldb | stb => exact f.toWord_and_low24
  all_goals exact BitVec.and_allOnes

/-- Settles O2: masking a word is clearing the fields the format ignores, and a word is what its fields are. -/
theorem wordDecodesIffItsUsedBitsAreTheEncoding : Obligations.WordDecodesIffItsUsedBitsAreTheEncoding := by
  unfold Obligations.WordDecodesIffItsUsedBitsAreTheEncoding
  intro w i
  have hmask := (Fields.ofWord w).toWord_and_usedBits i
  rw [Fields.toWord_ofWord] at hmask
  rw [hmask, encode, Fields.toWord_inj]
  exact decodeFields_eq_ok_iff

/-! ## Decoding an encoding -/

/-- An encoding has zeros in the fields its format ignores (R54). -/
theorem usedFields_encodeFields (i : Instr) : i.usedFields (encodeFields i) = encodeFields i := by
  cases i <;> rfl

@[simp] theorem decodeFields_encodeFields (i : Instr) : decodeFields (encodeFields i) = .ok i :=
  decodeFields_of_usedFields_eq (usedFields_encodeFields i)

/-- Settles O1: the fields of an encoding, read from its word or its bytes, are the ones written. -/
theorem decodeOfEncodeIsTheInstruction : Obligations.DecodeOfEncodeIsTheInstruction := by
  unfold Obligations.DecodeOfEncodeIsTheInstruction
  intro i
  refine ⟨?word, fun rest => ?bytes⟩
  case word => rw [decode, encode, Fields.ofWord_toWord, decodeFields_encodeFields]
  case bytes =>
    have hfields : decodeFields ⟨(encodeFields i).op, (encodeFields i).A, (encodeFields i).B, (encodeFields i).C⟩ = .ok i :=
      decodeFields_encodeFields i
    simp [encodeBytes, decodeBytes, hfields]

end Sys2Proof
end

section
/-! PROOFS. Legal and illegal words (30_encoding.md R55, R58, R59): the check of WellFormed.lean, the names of the refusals, and
the opcode map. -/

namespace Sys2Proof

/-! ## Words that are refused -/

theorem decodeReg_of_lt (field : FieldName) {b : Byte} (h : b.toNat < 32) : decodeReg field b = .ok ⟨b.toNat, h⟩ :=
  dif_pos h

theorem decodeReg_of_ge (field : FieldName) {b : Byte} (h : b.toNat ≥ 32) :
    decodeReg field b = .error (.noSuchRegister field b) :=
  dif_neg (Nat.not_lt.2 h)

theorem lt_of_decodeReg_eq_ok {field : FieldName} {b : Byte} {r : Reg} (h : decodeReg field b = .ok r) : b.toNat < 32 :=
  (decodeReg_eq_ok_iff field b).1 ⟨r, h⟩

theorem exists_decodeAImm_iff {f : Fields} {mk : Reg → Imm16 → Instr} :
    (∃ i, decodeAImm f mk = .ok i) ↔ f.A.toNat < 32 := by
  refine ⟨fun ⟨i, hi⟩ => ?_, fun hA => ⟨_, by rw [decodeAImm, decodeReg_of_lt _ hA]⟩⟩
  obtain ⟨rA, hA, -⟩ := decodeAImm_eq_ok hi
  exact lt_of_decodeReg_eq_ok hA

theorem exists_decodeAB_iff {f : Fields} {mk : Reg → Reg → Instr} :
    (∃ i, decodeAB f mk = .ok i) ↔ f.A.toNat < 32 ∧ f.B.toNat < 32 := by
  refine ⟨fun ⟨i, hi⟩ => ?_, fun ⟨hA, hB⟩ => ⟨_, by rw [decodeAB, decodeReg_of_lt _ hA, decodeReg_of_lt _ hB]⟩⟩
  obtain ⟨rA, rB, hA, hB, -⟩ := decodeAB_eq_ok hi
  exact ⟨lt_of_decodeReg_eq_ok hA, lt_of_decodeReg_eq_ok hB⟩

theorem exists_decodeABC_iff {f : Fields} {mk : Reg → Reg → Reg → Instr} :
    (∃ i, decodeABC f mk = .ok i) ↔ f.A.toNat < 32 ∧ f.B.toNat < 32 ∧ f.C.toNat < 32 := by
  refine ⟨fun ⟨i, hi⟩ => ?_, fun ⟨hA, hB, hC⟩ =>
    ⟨_, by rw [decodeABC, decodeReg_of_lt _ hA, decodeReg_of_lt _ hB, decodeReg_of_lt _ hC]⟩⟩
  obtain ⟨rA, rB, rC, hA, hB, hC, -⟩ := decodeABC_eq_ok hi
  exact ⟨lt_of_decodeReg_eq_ok hA, lt_of_decodeReg_eq_ok hB, lt_of_decodeReg_eq_ok hC⟩

/-- With an assigned opcode the bytes are an instruction exactly when the register fields its format uses are below 32 (R55). -/
theorem Fields.wellFormed_iff_of_format {f : Fields} {fmt : Format} (h : Format.ofOpcode f.op = some fmt) :
    f.wellFormed = true ↔ (fmt.usesA = true → f.A.toNat < 32) ∧ (fmt.usesB = true → f.B.toNat < 32) ∧
      (fmt.usesC = true → f.C.toNat < 32) := by
  simp [Fields.wellFormed, Fields.opcodeAssigned, Fields.registerOk, h, imp_iff_not_or, and_assoc]

/-- With an assigned opcode, the first register field of the format that names no register is the one refused. -/
theorem decodeFields_of_noSuchRegister {f : Fields} {fmt : Format} (h : Format.ofOpcode f.op = some fmt) :
    (fmt.usesA = true → f.A.toNat ≥ 32 → decodeFields f = .error (.noSuchRegister .fieldA f.A)) ∧
    (fmt.usesB = true → f.A.toNat < 32 → f.B.toNat ≥ 32 → decodeFields f = .error (.noSuchRegister .fieldB f.B)) ∧
    (fmt.usesC = true → f.A.toNat < 32 → f.B.toNat < 32 → f.C.toNat ≥ 32 →
      decodeFields f = .error (.noSuchRegister .fieldC f.C)) := by
  rcases decodeFields_cases f with ⟨hf, -⟩ | ⟨hf, -, -⟩ | ⟨hf, mk, -, hd⟩ | ⟨hf, mk, -, hd⟩ | ⟨hf, mk, -, hd⟩ <;>
    cases hf.symm.trans h
  · simp [Format.usesA, Format.usesB, Format.usesC]
  · refine ⟨fun _ hA => ?_, by simp [Format.usesB], by simp [Format.usesC]⟩
    rw [hd, decodeAImm, decodeReg_of_ge _ hA]
  · refine ⟨fun _ hA => ?_, fun _ hA hB => ?_, by simp [Format.usesC]⟩
    · rw [hd, decodeAB, decodeReg_of_ge _ hA]
    · rw [hd, decodeAB, decodeReg_of_lt _ hA, decodeReg_of_ge _ hB]
  · refine ⟨fun _ hA => ?_, fun _ hA hB => ?_, fun _ hA hB hC => ?_⟩
    · rw [hd, decodeABC, decodeReg_of_ge _ hA]
    · rw [hd, decodeABC, decodeReg_of_lt _ hA, decodeReg_of_ge _ hB]
    · rw [hd, decodeABC, decodeReg_of_lt _ hA, decodeReg_of_lt _ hB, decodeReg_of_ge _ hC]

/-- The decoder accepts exactly the bytes that WellFormed.lean accepts. -/
theorem exists_decodeFields_iff_wellFormed (f : Fields) : (∃ i, decodeFields f = .ok i) ↔ f.wellFormed = true := by
  rcases decodeFields_cases f with ⟨hf, hd⟩ | ⟨hf, -, hd⟩ | ⟨hf, mk, -, hd⟩ | ⟨hf, mk, -, hd⟩ | ⟨hf, mk, -, hd⟩
  · simp [hd, Fields.wellFormed, Fields.opcodeAssigned, hf]
  all_goals
    rw [hd, Fields.wellFormed_iff_of_format hf]
  · simp [Format.usesA, Format.usesB, Format.usesC]
  · simp [exists_decodeAImm_iff, Format.usesA, Format.usesB, Format.usesC]
  · simp [exists_decodeAB_iff, Format.usesA, Format.usesB, Format.usesC]
  · simp [exists_decodeABC_iff, Format.usesA, Format.usesB, Format.usesC]

/-- No opcode above `0x10` is assigned (R59). -/
theorem ofOpcode_of_gt : ∀ op : Byte, op.toNat > 0x10 → Format.ofOpcode op = none := by decide

theorem decodeFields_of_unassigned {f : Fields} (h : Format.ofOpcode f.op = none) :
    decodeFields f = .error (.unassignedOpcode f.op) := by
  rcases decodeFields_cases f with ⟨-, hd⟩ | ⟨hf, -⟩ | ⟨hf, -⟩ | ⟨hf, -⟩ | ⟨hf, -⟩
  · exact hd
  all_goals cases hf.symm.trans h

/-- Settles O4: the fields are checked in the order of the word, each against the format that the opcode selects. -/
theorem illegalWordsAreRefusedByName : Obligations.IllegalWordsAreRefusedByName := by
  unfold Obligations.IllegalWordsAreRefusedByName
  intro w
  exact ⟨exists_decodeFields_iff_wellFormed (Fields.ofWord w),
    fun hop => decodeFields_of_unassigned (f := Fields.ofWord w) (ofOpcode_of_gt _ hop),
    fun fmt hfmt => decodeFields_of_noSuchRegister (f := Fields.ofWord w) hfmt⟩

/-! ## The opcode map -/

/-- The opcode of a row. -/
def OpcodeRow.opcode (row : OpcodeRow) : Byte := row.pattern.extractLsb' 0 8

/-- The bits of a register field that a row masks: those that must be 0 if the format uses the field (R55, R58). -/
def registerMask (used : Bool) : Byte := if used then 0xE0 else 0

/-- The mask of every row with this format. -/
def Format.mask (fmt : Format) : Fields := ⟨0xFF, registerMask fmt.usesA, registerMask fmt.usesB, registerMask fmt.usesC⟩

/-- Each row is made of an opcode and the format that opcode selects. -/
theorem opcodeTable_rows : ∀ row ∈ opcodeTable, row.mask = row.format.mask.toWord ∧
    row.pattern = (encodeOp row.opcode).toWord ∧ Format.ofOpcode row.opcode = some row.format := by decide

theorem exists_row_of_assigned : ∀ op : Byte, (Format.ofOpcode op).isSome → ∃ row ∈ opcodeTable, row.opcode = op := by decide

theorem and_registerMask_eq_zero_iff (used : Bool) (b : Byte) :
    b &&& registerMask used = 0 ↔ (used = true → b.toNat < 32) := by
  have htop : ∀ b : Byte, b &&& 0xE0 = 0 ↔ b.toNat < 32 := by decide
  cases used
  · simp [registerMask]
  · simpa [registerMask] using htop b

theorem Fields.toWord_and_mask_eq_iff (f : Fields) (fmt : Format) (op : Byte) :
    f.toWord &&& fmt.mask.toWord = (encodeOp op).toWord ↔ f.op = op ∧ (fmt.usesA = true → f.A.toNat < 32) ∧
      (fmt.usesB = true → f.B.toNat < 32) ∧ (fmt.usesC = true → f.C.toNat < 32) := by
  have hall : f.op &&& 0xFF = f.op := BitVec.and_allOnes
  rw [Fields.toWord_and, Fields.toWord_inj, encodeOp, Fields.mk.injEq]
  simp only [Format.mask, and_registerMask_eq_zero_iff, hall]

/-- A row admits the words that have its opcode and that WellFormed.lean accepts. -/
theorem admits_iff {row : OpcodeRow} (h : row ∈ opcodeTable) (w : Word) :
    row.admits w = true ↔ (Fields.ofWord w).op = row.opcode ∧ (Fields.ofWord w).wellFormed = true := by
  obtain ⟨hmask, hpattern, hformat⟩ := opcodeTable_rows row h
  have hadmits := (Fields.ofWord w).toWord_and_mask_eq_iff row.format row.opcode
  rw [Fields.toWord_ofWord, ← hmask, ← hpattern] at hadmits
  rw [OpcodeRow.admits, beq_iff_eq, hadmits]
  refine and_congr_right fun hop => ?_
  exact (Fields.wellFormed_iff_of_format (hop ▸ hformat)).symm

/-- The rows of the map are named as the instructions are. -/
theorem opcode_eq_iff_mnemonic_eq (i : Instr) :
    ∀ row ∈ opcodeTable, (encodeFields i).op = row.opcode ↔ row.mnemonic = i.mnemonic := by
  cases i <;> simp only [encodeFields, encodeOp, encodeAImm, encodeAB, encodeABC, Instr.mnemonic] <;> decide

theorem op_of_decode {w : Word} {i : Instr} (h : decode w = .ok i) : (Fields.ofWord w).op = (encodeFields i).op := by
  have hused : (i.usedFields (Fields.ofWord w)).op = (Fields.ofWord w).op := by cases i <;> rfl
  rw [← hused, usedFields_eq_of_decodeFields h]

/-- Settles O3: a word that is accepted has an assigned opcode, so one row and only the row of that opcode admits it. -/
theorem decoderAgreesWithTheOpcodeMap : Obligations.DecoderAgreesWithTheOpcodeMap := by
  unfold Obligations.DecoderAgreesWithTheOpcodeMap
  refine ⟨fun w => (exists_decodeFields_iff_wellFormed _).trans ⟨fun hwf => ?some_row, ?no_other⟩, fun w i hi row hrow => ?named⟩
  case some_row =>
    have hchecks := hwf
    simp only [Fields.wellFormed, Bool.and_eq_true] at hchecks
    obtain ⟨⟨⟨hassigned, -⟩, -⟩, -⟩ := hchecks
    obtain ⟨row, hrow, hop⟩ := exists_row_of_assigned _ hassigned
    exact ⟨row, hrow, (admits_iff hrow w).2 ⟨hop.symm, hwf⟩⟩
  case no_other =>
    rintro ⟨row, hrow, hadmits⟩
    exact ((admits_iff hrow w).1 hadmits).2
  case named =>
    have hwf : (Fields.ofWord w).wellFormed = true := (exists_decodeFields_iff_wellFormed _).1 ⟨i, hi⟩
    rw [admits_iff hrow, and_iff_left hwf, op_of_decode hi]
    exact opcode_eq_iff_mnemonic_eq i row hrow

/-- Settles O5: the opcode of each word selects its format, whose fields are the operands. -/
theorem wordsWrittenFromTheFormatsDecode : Obligations.WordsWrittenFromTheFormatsDecode := by
  unfold Obligations.WordsWrittenFromTheFormatsDecode
  exact ⟨rfl, rfl, rfl, rfl, rfl, rfl, rfl, rfl, rfl⟩

end Sys2Proof
end

section
/-! PROOFS. The assembly (30_encoding.md R62, R63): what an operand stands for. -/

namespace Sys2Proof

@[simp] theorem AsmOperand.reg?_r (r : Reg) : (AsmOperand.r r.val).reg? = some r := dif_pos r.isLt

@[simp] theorem AsmOperand.imm?_toInt (imm : Imm16) : (AsmOperand.number imm.toInt).imm? = some imm := by
  have hlow : -32768 ≤ imm.toInt := imm.le_toInt
  have hhigh : imm.toInt < 32768 := imm.toInt_lt
  rw [AsmOperand.imm?, if_pos (by omega), BitVec.ofInt_toInt]

/-- From 32768 on an immediate is written by its bit pattern, which is that of the number 65536 below it (R62). -/
theorem AsmOperand.imm?_bit_pattern {v : Int} (hlow : 32768 ≤ v) (hhigh : v ≤ 65535) :
    (AsmOperand.number v).imm? = (AsmOperand.number (v - 65536)).imm? := by
  have hbits : BitVec.ofInt 16 v = BitVec.ofInt 16 (v - 65536) := by
    apply BitVec.eq_of_toNat_eq
    simp only [BitVec.toNat_ofInt]
    omega
  rw [AsmOperand.imm?, AsmOperand.imm?, if_pos (by omega), if_pos (by omega), hbits]

/-- An instruction's own line of assembly. The cases are its three forms. -/
theorem assemble_asmOperands (i : Instr) : assemble i.mnemonic i.asmOperands = some i := by
  cases i
  case nop => rfl
  case set => simp [assemble, Instr.mnemonic, Instr.asmOperands, asmAImm]
  case not | mov | ldw | stw | ldb | stb => simp [assemble, Instr.mnemonic, Instr.asmOperands, asmAB]
  all_goals simp [assemble, Instr.mnemonic, Instr.asmOperands, asmABC]

/-- Settles O7: an operand stands for its register or its immediate, and the mnemonic for the instruction. -/
theorem assemblyNamesTheInstruction : Obligations.AssemblyNamesTheInstruction := by
  unfold Obligations.AssemblyNamesTheInstruction
  refine ⟨assemble_asmOperands, fun n v hlow hhigh => ?bit_pattern, fun o => ⟨rfl, rfl⟩⟩
  case bit_pattern => simp [assemble, asmAImm, AsmOperand.imm?_bit_pattern hlow hhigh]

end Sys2Proof
end

section
/-! PROOFS. The step (10_state.md R25): what each outcome of the fetch and the decode makes of it, the faults before and in
execution (60_exceptions.md R111, R114), and the byte an access fault names. -/

namespace Sys2Proof.Machine

/-! ## The step, by what its fetch and its decode answer -/

theorem step_of_ended {s : State} (h : s.ended = true) : step s = .refused .runEnded := if_pos h

section
variable {s : State} (he : s.ended = false)
include he

theorem step_of_fetch_error {f : Fault} (hf : fetchWord s = .error f) : step s = .fault f := by
  simp [step, raise, he, hf]

theorem step_of_decode_error {w : Word} {e : DecodeError} (hf : fetchWord s = .ok w) (hd : decode w = .error e) :
    step s = .fault (.illegalInstruction w s.pc) := by
  simp [step, raise, he, hf, hd]

theorem step_of_decode_ok {w : Word} {i : Instr} (hf : fetchWord s = .ok w) (hd : decode w = .ok i) :
    step s = exec i s.advancePc := by
  simp [step, he, hf, hd]

end

/-- The instruction at `x[0]` reads its sources from the state whose `x[0]` was advanced (R104). -/
theorem State.reg_advancePc_eq_during (s : State) (r : Reg) : s.advancePc.reg r = s.during r := s.reg_advancePc r

/-- Settles O8: advancing `x[0]` writes one register. -/
theorem stepRunsTheDecodedInstruction : Obligations.StepRunsTheDecodedInstruction := by
  unfold Obligations.StepRunsTheDecodedInstruction
  intro s i hfetch hat
  have hpc : s.advancePc.pc.toNat = (s.pc.toNat + 4) % 2 ^ 32 := by
    rw [State.pc_advancePc, BitVec.toNat_add]
    rfl
  exact ⟨step_eq_exec_advancePc hfetch hat, hpc, s.sameRegsBut_advancePc, s.sameMem_advancePc, s.sameRest_advancePc⟩

/-- Settles O9: the run is not over, so the fault of the fetch, or else of the decode, is the step's. -/
theorem fetchAndDecodeFaultInOrder : Obligations.FetchAndDecodeFaultInOrder := by
  unfold Obligations.FetchAndDecodeFaultInOrder
  intro s hend
  have he := s.ended_eq_false_iff.2 hend
  refine ⟨fun hm ha => step_of_fetch_error he (fetchWord_of_misaligned hm ha), fun ha hb => ?unbacked,
    fun ha k hk hh => step_of_fetch_error he (fetchWord_of_reportedUnbacked ha (reportedUnbacked?_of_hole hk hh)),
    fun ha hb hillegal => ?illegal⟩
  case unbacked =>
    obtain ⟨b, htouched, hunbacked, hreported⟩ := exists_reportedUnbacked (w := .word) hb
    exact ⟨b, htouched, hunbacked, step_of_fetch_error he (fetchWord_of_reportedUnbacked ha hreported)⟩
  case illegal =>
    cases hd : decode (s.wordAt s.pc) with
    | error e => exact step_of_decode_error he (fetchWord_of_backed ha hb) hd
    | ok i => exact absurd hd (hillegal i)

/-! ## The faults of execution -/

/-- The faults of an instruction, by the access that is not admitted. -/
inductive ExecFault (i : Instr) (s : State) (f : Fault) : Prop where
  | ldw (rA rB : Reg) (hi : i = .ldw rA rB) (hf : dataFault? s .load .word (s.reg rB) = some f)
  | stw (rA rB : Reg) (hi : i = .stw rA rB) (hf : dataFault? s .store .word (s.reg rA) = some f)
  | ldb (rA rB : Reg) (hi : i = .ldb rA rB) (hf : dataFault? s .load .byte (s.reg rB) = some f)
  | stb (rA rB : Reg) (hi : i = .stb rA rB) (hf : dataFault? s .store .byte (s.reg rA) = some f)

theorem dataAccess_next_or_fault (s : State) (kind : AccessKind) (w : Width) (addr : Word) (after : State) :
    (∃ t, dataAccess s kind w addr after = .next t) ∨
    ∃ f, dataAccess s kind w addr after = .fault f ∧ dataFault? s kind w addr = some f := by
  rcases dataAccess_cases s kind w addr after with ⟨-, hnext⟩ | ⟨f, hf, hfault⟩
  · exact .inl ⟨_, hnext⟩
  · exact .inr ⟨f, hfault, hf⟩

/-- Everything an instruction can answer: it goes on, or an access of a load or a store is not admitted. -/
theorem exec_cases (i : Instr) (s : State) : (∃ t, exec i s = .next t) ∨ ∃ f, exec i s = .fault f ∧ ExecFault i s f := by
  cases i
  case lsh rA rB rC =>
    obtain ⟨t, hnext, -⟩ := shift_spec shiftRightUnsigned s rA rB rC
    exact .inl ⟨t, hnext⟩
  case ash rA rB rC =>
    obtain ⟨t, hnext, -⟩ := shift_spec shiftRightSigned s rA rB rC
    exact .inl ⟨t, hnext⟩
  case ldw rA rB =>
    exact (dataAccess_next_or_fault s .load .word _ _).imp_right fun ⟨f, h, hf⟩ => ⟨f, h, .ldw rA rB rfl hf⟩
  case stw rA rB =>
    exact (dataAccess_next_or_fault s .store .word _ _).imp_right fun ⟨f, h, hf⟩ => ⟨f, h, .stw rA rB rfl hf⟩
  case ldb rA rB =>
    exact (dataAccess_next_or_fault s .load .byte _ _).imp_right fun ⟨f, h, hf⟩ => ⟨f, h, .ldb rA rB rfl hf⟩
  case stb rA rB =>
    exact (dataAccess_next_or_fault s .store .byte _ _).imp_right fun ⟨f, h, hf⟩ => ⟨f, h, .stb rA rB rfl hf⟩
  all_goals exact .inl ⟨_, rfl⟩

theorem exec_eq_fault {i : Instr} {s : State} {f : Fault} (h : exec i s = .fault f) : ExecFault i s f := by
  rcases exec_cases i s with ⟨t, hnext⟩ | ⟨g, hfault, hg⟩
  · cases hnext.symm.trans h
  · cases hfault.symm.trans h
    exact hg

theorem exec_ne_refused (i : Instr) (s : State) (r : Refusal) : exec i s ≠ .refused r := by
  rcases exec_cases i s with ⟨t, hnext⟩ | ⟨g, hfault, -⟩
  · simp [hnext]
  · simp [hfault]

/-- The faults of a word access. -/
theorem word_fault_cases {s : State} {kind : AccessKind} {addr : Word} {f : Fault}
    (h : dataFault? s kind .word addr = some f) : f = .misalignedAccess addr kind (s.pc - 4) ∨
      ∃ b ∈ touched .word addr, Config.isBacked s.cfg b = false ∧ f = .accessFault b kind (s.pc - 4) := by
  rcases dataFault?_cases h with ⟨-, hf⟩ | ⟨b, hreported, hf⟩
  · exact .inl hf
  · obtain ⟨htouched, hunbacked, -⟩ := reportedUnbacked?_spec hreported
    exact .inr ⟨b, htouched, hunbacked, hf⟩

/-- The fault of a byte access. -/
theorem byte_fault_eq {s : State} {kind : AccessKind} {addr : Word} {f : Fault}
    (h : dataFault? s kind .byte addr = some f) : f = .accessFault addr kind (s.pc - 4) := by
  rcases dataFault?_cases h with ⟨hword, -⟩ | ⟨b, hreported, hf⟩
  · cases hword
  · obtain ⟨htouched, -, -⟩ := reportedUnbacked?_spec hreported
    rw [hf, mem_touched_byte_iff.1 htouched, State.currentAddr]

/-- Settles O12: a fault of execution is that of the one access the instruction makes. -/
theorem onlyLoadsAndStoresFaultInExecution : Obligations.OnlyLoadsAndStoresFaultInExecution := by
  unfold Obligations.OnlyLoadsAndStoresFaultInExecution
  refine ⟨fun i s => (exec_cases i s).imp_right fun ⟨f, h, _⟩ => ⟨f, h⟩, fun i s f h => ?_⟩
  cases exec_eq_fault h with
  | ldw rA rB hi hf => exact .inl ⟨rA, rB, hi, word_fault_cases hf⟩
  | stw rA rB hi hf => exact .inr (.inl ⟨rA, rB, hi, word_fault_cases hf⟩)
  | ldb rA rB hi hf => exact .inr (.inr (.inl ⟨rA, rB, hi, byte_fault_eq hf⟩))
  | stb rA rB hi hf => exact .inr (.inr (.inr ⟨rA, rB, hi, byte_fault_eq hf⟩))

/-! ## The byte an access fault names -/

theorem dataAccess_eq_fault {s : State} {kind : AccessKind} {w : Width} {addr : Word} {after : State} {f : Fault}
    (h : dataAccess s kind w addr after = .fault f) : dataFault? s kind w addr = some f := by
  rcases dataAccess_cases s kind w addr after with ⟨-, hnext⟩ | ⟨g, hg, hfault⟩
  · cases hnext.symm.trans h
  · cases hfault.symm.trans h
    exact hg

theorem fetchWord_eq_error {s : State} {f : Fault} (h : fetchWord s = .error f) :
    f = .misalignedFetch s.pc ∨ ∃ b, reportedUnbacked? s.cfg .word s.pc = some b ∧ f = .accessFault b .fetch s.pc := by
  unfold fetchWord at h
  split at h
  · next g hfault =>
    cases h
    unfold fetchFault? at hfault
    split at hfault
    · exact .inl (Option.some.inj hfault).symm
    · split at hfault
      · next b hb => exact .inr ⟨b, hb, (Option.some.inj hfault).symm⟩
      · cases hfault
  · cases h

theorem reportedHole_of_reportedUnbacked {s : State} {addr b : Word} (h : reportedUnbacked? s.cfg .word addr = some b) :
    s.ReportedHole addr b := by
  obtain ⟨htouched, hunbacked, hlowest⟩ := reportedUnbacked?_spec h
  exact ⟨htouched, hunbacked, hlowest, fun hfirst => reportedUnbacked?_firstInAccessOrder hfirst h⟩

theorem reportedHole_of_dataAccess_fault {s : State} {kind kind' : AccessKind} {addr b a : Word} {after : State}
    (h : dataAccess s kind .word addr after = .fault (.accessFault b kind' a)) : s.ReportedHole addr b := by
  rcases dataFault?_cases (dataAccess_eq_fault h) with ⟨-, hf⟩ | ⟨c, hreported, hf⟩
  · cases hf
  · cases hf
    exact reportedHole_of_reportedUnbacked hreported

/-- An access fault of kind fetch is not execution's. -/
theorem exec_ne_fetch_fault (i : Instr) (s : State) (b a : Word) : exec i s ≠ .fault (.accessFault b .fetch a) := by
  intro h
  cases exec_eq_fault h with
  | ldw rA rB hi hf | stw rA rB hi hf => rcases word_fault_cases hf with hf | ⟨c, -, -, hf⟩ <;> cases hf
  | ldb rA rB hi hf | stb rA rB hi hf => cases byte_fault_eq hf

theorem reportedHole_of_fetch_fault {s : State} {b a : Word} (h : step s = .fault (.accessFault b .fetch a)) :
    a = s.pc ∧ s.ReportedHole s.pc b := by
  rcases step_cases s with ⟨-, hs⟩ | ⟨-, f, hf, hs⟩ | ⟨-, w, e, -, -, hs⟩ | ⟨-, w, i, -, -, hs⟩ <;> rw [hs] at h
  · cases h
  · cases h
    rcases fetchWord_eq_error hf with hf | ⟨c, hreported, hf⟩ <;> cases hf
    exact ⟨rfl, reportedHole_of_reportedUnbacked hreported⟩
  · cases h
  · exact absurd h (exec_ne_fetch_fault i _ b a)

theorem toNat_add_offset {addr : Word} {k : Nat} (haddr : addr.toNat + 3 < 2 ^ 32) (hk : k < 4) :
    (addr + BitVec.ofNat 32 k).toNat = addr.toNat + k := by
  rw [BitVec.toNat_add, BitVec.toNat_ofNat]
  omega

/-- Without a wrap the first unbacked byte in access order is the lowest. -/
theorem hole_of_reportedHole {s : State} {addr b : Word} (haddr : addr.toNat + 3 < 2 ^ 32) (h : s.ReportedHole addr b) :
    ∃ k, k < 4 ∧ b = addr + BitVec.ofNat 32 k ∧ s.Hole addr k := by
  obtain ⟨htouched, hunbacked, hlowest, hfirst⟩ := h
  cases hr : s.cfg.holeReport with
  | lowest =>
    obtain ⟨k, hk, rfl⟩ := (mem_touched_iff .word addr b).1 htouched
    have hleast (j : Nat) (hj : j < 4) (hu : Config.isBacked s.cfg (addr + BitVec.ofNat 32 j) = false) :
        (addr + BitVec.ofNat 32 k).toNat ≤ (addr + BitVec.ofNat 32 j).toNat :=
      hlowest hr _ ((mem_touched_iff .word addr _).2 ⟨j, hj, rfl⟩) hu
    refine ⟨k, hk, rfl, fun j hj => ?before, hunbacked, hleast⟩
    case before =>
      have hj4 : j < 4 := hj.trans hk
      by_contra hu
      have hle := hleast j hj4 (Bool.not_eq_true _ ▸ hu)
      rw [toNat_add_offset haddr hk, toNat_add_offset haddr hj4] at hle
      omega
  | firstInAccessOrder =>
    obtain ⟨k, hk, rfl, hbefore⟩ := hfirst hr
    refine ⟨k, hk, rfl, hbefore, hunbacked, fun j hj hu => ?least⟩
    case least =>
      have hkj : k ≤ j := by
        by_contra hlt
        simp [hbefore j (Nat.lt_of_not_le hlt)] at hu
      rw [toNat_add_offset haddr hk, toNat_add_offset haddr hj]
      omega

/-- Settles O48: the byte a fault names is the reported one, whichever report the parameter asks for. -/
theorem accessFaultsNameTheByteTheParameterSays : Obligations.AccessFaultsNameTheByteTheParameterSays := by
  unfold Obligations.AccessFaultsNameTheByteTheParameterSays
  exact ⟨fun s rA rB b a => ⟨reportedHole_of_dataAccess_fault, reportedHole_of_dataAccess_fault, reportedHole_of_fetch_fault⟩,
    fun s addr b haddr h => hole_of_reportedHole haddr h⟩

end Sys2Proof.Machine
end

section
/-! PROOFS. The run (60_exceptions.md R115, R116, 70_reset_and_hazards.md R132): how it stops, and what it keeps. -/

namespace Sys2Proof.Machine

theorem State.ended_eq_true_iff (s : State) : s.ended = true ↔ s.pc ∈ s.cfg.endAddrs := by
  simp [State.ended]

theorem step_eq_refused {s : State} {r : Refusal} (h : step s = .refused r) : s.ended = true ∧ r = .runEnded := by
  rcases step_cases s with ⟨he, hs⟩ | ⟨-, f, -, hs⟩ | ⟨-, w, e, -, -, hs⟩ | ⟨-, w, i, -, -, hs⟩ <;> rw [hs] at h
  · cases h
    exact ⟨he, rfl⟩
  · cases h
  · cases h
  · exact absurd h (exec_ne_refused i _ r)

/-! ## One more step of a run -/

theorem Run.advance_of_next {s t : State} (h : step s = .next t) : (Run.start s).advance = Run.start t := by
  simp [Run.start, Run.advance, h]

theorem Run.advance_of_ended {s : State} (h : s.ended = true) : (Run.start s).advance = ⟨s, .ended⟩ := by
  simp [Run.start, Run.advance, step_of_ended h]

/-- Everything one more step of a running run can do. -/
theorem Run.advance_cases (s : State) :
    (∃ t, step s = .next t ∧ (Run.start s).advance = Run.start t) ∨
    (∃ f, step s = .fault f ∧ (Run.start s).advance = ⟨s, .faulted f⟩) ∨
    (s.ended = true ∧ (Run.start s).advance = ⟨s, .ended⟩) := by
  cases hs : step s with
  | next t => exact .inl ⟨t, rfl, Run.advance_of_next hs⟩
  | fault f => exact .inr (.inl ⟨f, rfl, faultVoidsTheStep s f hs⟩)
  | refused r =>
    obtain ⟨he, -⟩ := step_eq_refused hs
    exact .inr (.inr ⟨he, Run.advance_of_ended he⟩)

/-- A stopped run stays as it is. -/
theorem Run.advanceBy_of_advance_eq {r : Run} (h : r.advance = r) (k : Nat) : Run.advanceBy k r = r := by
  induction k with
  | zero => rfl
  | succ k ih => rw [Run.advanceBy, h, ih]

theorem Run.advanceBy_succ_of_fault {s : State} {f : Fault} (h : step s = .fault f) (k : Nat) :
    Run.advanceBy (k + 1) (Run.start s) = ⟨s, .faulted f⟩ := by
  rw [Run.advanceBy, faultVoidsTheStep s f h]
  exact Run.advanceBy_of_advance_eq rfl k

theorem Run.advanceBy_succ_of_ended {s : State} (h : s.ended = true) (k : Nat) :
    Run.advanceBy (k + 1) (Run.start s) = ⟨s, .ended⟩ := by
  rw [Run.advanceBy, Run.advance_of_ended h]
  exact Run.advanceBy_of_advance_eq rfl k

/-- Settles O10: at an end address the step refuses, and nothing else refuses. -/
theorem runEndsExactlyAtAnEndAddress : Obligations.RunEndsExactlyAtAnEndAddress := by
  unfold Obligations.RunEndsExactlyAtAnEndAddress
  intro s
  rw [← s.ended_eq_true_iff]
  exact ⟨⟨fun he => ⟨.runEnded, step_of_ended he⟩, fun ⟨_, hr⟩ => (step_eq_refused hr).1⟩, Run.advanceBy_succ_of_ended⟩

/-- Settles O11: the first of the steps stops the run, and the others leave it as it is. -/
theorem faultStopsTheRunAndKeepsItsState : Obligations.FaultStopsTheRunAndKeepsItsState := by
  unfold Obligations.FaultStopsTheRunAndKeepsItsState
  exact fun s f hfault => Run.advanceBy_succ_of_fault hfault

/-! ## What every run keeps -/

/-- What the step of a running run gives, and no stopped run loses, holds after any number of steps. -/
theorem Run.advanceBy_induction {P : Run → Prop} (hstep : ∀ s, P (Run.start s) → P (Run.start s).advance) {r : Run} (h : P r)
    (k : Nat) : P (Run.advanceBy k r) := by
  induction k generalizing r with
  | zero => exact h
  | succ k ih =>
    obtain ⟨s, condition⟩ := r
    cases condition with
    | running => exact ih (hstep s h)
    | ended | faulted | refused => exact ih h

theorem Effect.cfg_eq {i : Instr} {s t : State} (h : Effect i s t) : t.cfg = s.cfg := by
  cases h <;> rfl

theorem step_cfg_eq {s t : State} (h : step s = .next t) : t.cfg = s.cfg := by
  obtain ⟨i, -, -, -, hexec⟩ := step_eq_next h
  exact (exec_effect hexec).cfg_eq

/-- Settles O45: a run changes its state by steps only. -/
theorem noStepChangesTheParameters : Obligations.NoStepChangesTheParameters := by
  unfold Obligations.NoStepChangesTheParameters
  intro k s
  refine Run.advanceBy_induction (P := fun r => r.state.cfg = s.cfg) (fun u hu => ?_) rfl k
  rcases Run.advance_cases u with ⟨t, hs, ha⟩ | ⟨f, -, ha⟩ | ⟨-, ha⟩ <;> rw [ha]
  · exact (step_cfg_eq hs).trans hu
  · exact hu
  · exact hu

/-- How a run stands: the reason it stopped for, if it did, is one that its state gives. -/
def Run.Accounted (r : Run) : Prop :=
  r.condition = .running ∨ (∃ f, r.condition = .faulted f ∧ step r.state = .fault f) ∨
  (r.condition = .ended ∧ r.state.pc ∈ r.state.cfg.endAddrs)

theorem Run.accounted_advance (s : State) : (Run.start s).advance.Accounted := by
  rcases Run.advance_cases s with ⟨t, -, ha⟩ | ⟨f, hs, ha⟩ | ⟨he, ha⟩ <;> rw [ha]
  · exact .inl rfl
  · exact .inr (.inl ⟨f, rfl, hs⟩)
  · exact .inr (.inr ⟨rfl, s.ended_eq_true_iff.1 he⟩)

/-- Settles O47: each step of a running run leaves it running or stopped for a reason of its state, which it keeps. -/
theorem aRunStopsOnlyByAFaultOrAtAnEndAddress : Obligations.ARunStopsOnlyByAFaultOrAtAnEndAddress := by
  unfold Obligations.ARunStopsOnlyByAFaultOrAtAnEndAddress
  intro k s
  have haccounted : (Run.advanceBy k (Run.start s)).Accounted :=
    Run.advanceBy_induction (fun u _ => Run.accounted_advance u) (.inl rfl) k
  rw [← noStepChangesTheParameters k s]
  exact haccounted

end Sys2Proof.Machine
end

section
/-! PROOFS. The host's placed word (log entry 3): it is what the next step fetches, from any state. -/

namespace Sys2Proof

theorem decode_of_decodeTableWord {nbits w : Nat} {i : Instr} (h : decodeTableWord nbits w = some i) :
    decode (tableWord nbits w) = .ok i := by
  have hfields : decodeBytes (bytesOfWord (tableWord nbits w)) =
      match decode (tableWord nbits w) with
      | .error e => .error e
      | .ok i => .ok (i, []) := rfl
  rw [decodeTableWord, hfields] at h
  cases hd : decode (tableWord nbits w) with
  | error e => simp [hd] at h
  | ok j => simpa [hd] using h

end Sys2Proof

namespace Sys2Proof.Machine

/-- What was backed is, and so are the four bytes at `x[0]`. -/
theorem isBacked_placeAtPc (s : State) (w : Word) {a : Word} (ha : a ∈ touched .word s.pc) :
    Config.isBacked (s.placeAtPc w).cfg a = true := by
  cases hb : Config.isBacked s.cfg a with
  | true =>
    simp only [Config.isBacked] at hb
    simp [Config.isBacked, State.placeAtPc, hb]
  | false =>
    have hregion : ⟨a, a⟩ ∈ missingRegions s.cfg s.pc := List.mem_map.2 ⟨a, List.mem_filter.2 ⟨ha, by simp [hb]⟩, rfl⟩
    exact List.any_eq_true.2 ⟨⟨a, a⟩, List.mem_append_left _ hregion, by simp [Region.contains]⟩

theorem placeAtPc_endAddrs (s : State) (w : Word) :
    (s.placeAtPc w).cfg.endAddrs = s.cfg.endAddrs.filter (fun e => e != s.pc) := rfl

theorem fetchable_placeAtPc (s : State) (w : Word) : (s.placeAtPc w).Fetchable := by
  refine ⟨?running, ?aligned, fun k hk => ?backed⟩
  case running => simp [placeAtPc_endAddrs]
  case aligned =>
    cases hm : misaligned s.cfg .word s.pc with
    | true => exact .inl (by simp [State.placeAtPc, hm])
    | false => exact ((misaligned_word_eq_false_iff _ _).1 hm).imp_left fun hok => by simp [State.placeAtPc, hok]
  case backed => exact isBacked_placeAtPc s w ((mem_touched_iff .word s.pc _).2 ⟨k, hk, rfl⟩)

/-- Where the fetch was admitted, admitting it changes no parameter. -/
theorem placeAtPc_cfg_of_fetchable {s : State} (h : s.Fetchable) (w : Word) : (s.placeAtPc w).cfg = s.cfg := by
  obtain ⟨hend, haligned, hbacked⟩ := h
  have hregions : missingRegions s.cfg s.pc = [] :=
    congrArg (List.map _) ((unbackedBytes_eq_nil_iff s.cfg .word s.pc).2 hbacked)
  have hends : s.cfg.endAddrs.filter (fun e => e != s.pc) = s.cfg.endAddrs :=
    List.filter_eq_self.2 fun e he => bne_iff_ne.2 fun hsame => hend (hsame ▸ he)
  have hok : misaligned s.cfg .word s.pc = false := (misaligned_word_eq_false_iff _ _).2 haligned
  simp [State.placeAtPc, hregions, hends, hok]

/-- Settles O13: the placed word is fetched, and it decodes to the instruction. -/
theorem placedWordIsWhatTheNextStepRuns : Obligations.PlacedWordIsWhatTheNextStepRuns := by
  unfold Obligations.PlacedWordIsWhatTheNextStepRuns
  intro s nbits w i htable
  have hdecode := decode_of_decodeTableWord htable
  rw [State.withFetchWord]
  generalize tableWord nbits w = word at hdecode
  have hat : (s.placeAtPc word).AtPc i := by simpa [State.AtPc] using hdecode
  exact ⟨step_eq_exec_advancePc (fetchable_placeAtPc s word) hat, fun q => s.reg_placeAtPc q word,
    fun a hout => (s.byteAt_placeAtPc word a).trans (s.byteAt_setWord_outside word hout), fun h => placeAtPc_cfg_of_fetchable h word⟩

end Sys2Proof.Machine
end

section
/-! PROOFS. Memory as data (10_state.md R20, section 5): canonical memories that read alike are equal, every effect keeps memory
canonical and inside `MEM`, and so does every launch. -/

namespace Sys2Proof.Machine

/-! ## A canonical memory is determined by its bytes -/

/-- A canonical memory lists exactly the bytes it reads that an unlisted address does not read as. -/
theorem Memory.mem_iff_read {m : Memory} (h : m.wf) (a : Nat) (v : Byte) :
    (a, v) ∈ m ↔ m.read a = v ∧ v ≠ Memory.unlistedByte := by
  refine ⟨fun hm => ⟨Memory.read_of_mem h hm, (h.2 _ hm).2⟩, fun ⟨hread, hv⟩ => ?listed⟩
  case listed =>
    have hlisted : ∃ c ∈ m, c.1 = a := by
      by_contra hnone
      push Not at hnone
      exact hv (hread ▸ Memory.read_unlisted hnone)
    obtain ⟨⟨k, w⟩, hm, rfl⟩ := hlisted
    rwa [← hread, Memory.read_of_mem h hm]

theorem Memory.subset_of_read_eq {m n : Memory} (hm : m.wf) (hn : n.wf) (h : ∀ a : Nat, a < 2 ^ 32 → m.read a = n.read a) :
    m ⊆ n := by
  rintro ⟨a, v⟩ hc
  obtain ⟨hread, hv⟩ := (Memory.mem_iff_read hm a v).1 hc
  exact (Memory.mem_iff_read hn a v).2 ⟨(h a (hm.2 _ hc).1).symm.trans hread, hv⟩

/-- Settles O40: the two memories list the same cells, and each lists them by rising address. -/
theorem canonicalMemoryIsDeterminedByItsBytes : Obligations.CanonicalMemoryIsDeterminedByItsBytes := by
  unfold Obligations.CanonicalMemoryIsDeterminedByItsBytes
  intro m n hm hn hread
  have hirrefl : Std.Irrefl fun c d : Host.Cell => c.1 < d.1 := ⟨fun c => Nat.lt_irrefl c.1⟩
  have hantisymm : Std.Antisymm fun c d : Host.Cell => c.1 < d.1 := ⟨fun _ _ hcd hdc => absurd hcd (Nat.lt_asymm hdc)⟩
  exact List.Subset.antisymm_of_pairwise hm.1 hn.1 (Memory.subset_of_read_eq hm hn hread)
    (Memory.subset_of_read_eq hn hm fun a ha => (hread a ha).symm)

/-! ## Every effect keeps the invariant -/

theorem State.inv_setByte {s : State} (h : s.Inv) {a : Word} (hb : Config.isBacked s.cfg a = true) (v : Byte) :
    (s.setByte a v).Inv := by
  obtain ⟨hwf, hbacked⟩ := h
  refine ⟨State.wf_setByte hwf a v, fun c hc => ?_⟩
  rcases State.mem_setByte hc with hold | hnew
  · exact hbacked c hold
  · rw [hnew, BitVec.ofNat_toNat, BitVec.setWidth_eq]
    exact hb

theorem State.inv_setWord {s : State} (h : s.Inv) {a : Word} (hb : s.BackedFrom a 4) (v : Word) : (s.setWord a v).Inv := by
  have h0 : Config.isBacked s.cfg a = true := by simpa using hb 0 (by decide)
  have h1 := State.inv_setByte (State.inv_setByte h h0 (v.extractLsb' 0 8)) (hb 1 (by decide)) (v.extractLsb' 8 8)
  have h2 := State.inv_setByte h1 (hb 2 (by decide)) (v.extractLsb' 16 8)
  exact State.inv_setByte h2 (hb 3 (by decide)) (v.extractLsb' 24 8)

theorem Effect.inv {i : Instr} {s t : State} (h : Effect i s t) (hs : s.Inv) : t.Inv := by
  cases h with
  | nothing => exact hs
  | register r v => exact hs
  | free rA => exact hs
  | word rA rB hi ha => exact State.inv_setWord hs ((dataFault?_word_eq_none_iff s .store _).1 ha).2 _
  | byte rA rB hi ha => exact State.inv_setByte hs ((dataFault?_byte_eq_none_iff s .store _).1 ha) _

/-- Settles O41: a step is an effect on the state whose `x[0]` was advanced, whose memory is the same. -/
theorem everyStepKeepsTheInvariant : Obligations.EveryStepKeepsTheInvariant := by
  unfold Obligations.EveryStepKeepsTheInvariant
  intro s t hs hstep
  obtain ⟨i, -, -, -, hexec⟩ := step_eq_next hstep
  have hadvanced : s.advancePc.Inv := hs
  exact (exec_effect hexec).inv hadvanced

/-! ## What a step stores -/

theorem Effect.byteAt_of_unbacked {i : Instr} {s t : State} (h : Effect i s t) {a : Word}
    (ha : Config.isBacked s.cfg a = false) : t.byteAt a = s.byteAt a := by
  cases h with
  | nothing => rfl
  | register r v => rfl
  | free rA => rfl
  | word rA rB hi hadmitted =>
    refine s.byteAt_setWord_outside _ fun htouched => ?_
    obtain ⟨k, hk, rfl⟩ := (mem_touched_iff _ _ _).1 htouched
    have hbacked := ((dataFault?_word_eq_none_iff s .store _).1 hadmitted).2 k hk
    simp [hbacked] at ha
  | byte rA rB hi hadmitted =>
    refine s.byteAt_setByte_ne _ fun hsame => ?_
    have hbacked := (dataFault?_byte_eq_none_iff s .store _).1 hadmitted
    simp [hsame, hbacked] at ha

/-- Memory is exactly as before but where a store put its bytes. -/
theorem Effect.stores {i : Instr} {s t : State} (h : Effect i s t) :
    (∃ rA rB, i = .stw rA rB ∧ State.SameMemOutside .word (s.reg rA) s t) ∨
    (∃ rA rB, i = .stb rA rB ∧ State.SameMemOutside .byte (s.reg rA) s t) ∨
    (i.mnemonic ∉ ["stw", "stb"] ∧ t.mem = s.mem) := by
  cases h with
  | nothing hi => exact .inr (.inr ⟨by simp [hi, Instr.mnemonic], rfl⟩)
  | register r v hdest =>
    have hmnemonic := ((i.dest?_eq_some_iff r).1 hdest).1
    exact .inr (.inr ⟨fun hstore => hmnemonic (.tail _ hstore), rfl⟩)
  | free rA rB rC hshift => exact .inr (.inr ⟨by rcases hshift with rfl | rfl <;> simp [Instr.mnemonic], rfl⟩)
  | word rA rB hi => exact .inl ⟨rA, rB, hi, fun _ hout => s.byteAt_setWord_outside _ hout⟩
  | byte rA rB hi => exact .inr (.inl ⟨rA, rB, hi, fun _ hout => s.byteAt_setByte_ne _ (hout ∘ mem_touched_byte_iff.2)⟩)

/-- Settles O39: the effect of the step is on the state whose `x[0]` was advanced, which has the same memory. -/
theorem onlyStoresChangeMemoryAndOnlyBackedBytes : Obligations.OnlyStoresChangeMemoryAndOnlyBackedBytes := by
  unfold Obligations.OnlyStoresChangeMemoryAndOnlyBackedBytes
  intro s t hstep
  obtain ⟨i, -, -, hdecode, hexec⟩ := step_eq_next hstep
  refine ⟨fun a ha => (exec_effect hexec).byteAt_of_unbacked ha, i, hdecode, ?_⟩
  have hstores := (exec_effect hexec).stores
  simp only [State.reg_advancePc_eq_during] at hstores
  exact hstores

/-! ## A launch -/

theorem State.inv_placeByte {s : State} (h : s.Inv) (cell : Word × Byte) : (s.placeByte cell).Inv := by
  unfold State.placeByte
  split
  · next hb => exact State.inv_setByte h hb _
  · exact h

@[simp] theorem State.placeByte_regs (s : State) (cell : Word × Byte) : (s.placeByte cell).regs = s.regs := by
  unfold State.placeByte
  split <;> rfl

@[simp] theorem State.placeByte_cfg (s : State) (cell : Word × Byte) : (s.placeByte cell).cfg = s.cfg := by
  unfold State.placeByte
  split <;> rfl

theorem State.placeBytes_cons (s : State) (cell : Word × Byte) (cells : List (Word × Byte)) :
    s.placeBytes (cell :: cells) = (s.placeByte cell).placeBytes cells := rfl

/-- Placing bytes keeps what placing one byte keeps. -/
theorem State.placeBytes_induction {P : State → Prop} (hP : ∀ s cell, P s → P (s.placeByte cell)) {s : State} (h : P s)
    (cells : List (Word × Byte)) : P (s.placeBytes cells) := by
  induction cells generalizing s with
  | nil => exact h
  | cons cell cells ih => exact ih (hP s cell h)

@[simp] theorem State.placeBytes_regs (s : State) (cells : List (Word × Byte)) : (s.placeBytes cells).regs = s.regs :=
  State.placeBytes_induction (P := fun t => t.regs = s.regs) (fun t cell h => (t.placeByte_regs cell).trans h) rfl cells

@[simp] theorem State.placeBytes_cfg (s : State) (cells : List (Word × Byte)) : (s.placeBytes cells).cfg = s.cfg :=
  State.placeBytes_induction (P := fun t => t.cfg = s.cfg) (fun t cell h => (t.placeByte_cfg cell).trans h) rfl cells

/-- Settles O43: nothing is listed before the placing, and each placed byte is backed. -/
theorem everyLaunchMeetsTheInvariant : Obligations.EveryLaunchMeetsTheInvariant := by
  unfold Obligations.EveryLaunchMeetsTheInvariant
  intro c l
  have hblank : (State.blank c l.regs l.entry).Inv := ⟨Memory.wf_nil, fun _ hc => absurd hc List.not_mem_nil⟩
  have hplace (s : State) (cell : Word × Byte) (h : s.Inv) : (s.placeByte cell).Inv := State.inv_placeByte h cell
  exact State.placeBytes_induction hplace (State.placeBytes_induction hplace hblank l.rest) l.image

/-- Settles O42: the reset state is a launch by definition, so it meets the invariant as every launch does. -/
theorem resetMeetsTheInvariant : Obligations.ResetMeetsTheInvariant := by
  unfold Obligations.ResetMeetsTheInvariant
  exact ⟨everyLaunchMeetsTheInvariant Config.vectors Launch.vectors, rfl, rfl, rfl⟩

theorem State.byteAt_placeByte_ne (s : State) {cell : Word × Byte} {a : Word} (h : a ≠ cell.1) :
    (s.placeByte cell).byteAt a = s.byteAt a := by
  unfold State.placeByte
  split
  · exact s.byteAt_setByte_ne _ h
  · rfl

theorem State.byteAt_placeByte_self (s : State) {cell : Word × Byte} (hb : Config.isBacked s.cfg cell.1 = true) :
    (s.placeByte cell).byteAt cell.1 = cell.2 := by
  rw [State.placeByte, if_pos hb, State.byteAt_setByte_self]

theorem State.byteAt_placeBytes_of_notMem (s : State) {cells : List (Word × Byte)} {a : Word}
    (h : a ∉ cells.map Prod.fst) : (s.placeBytes cells).byteAt a = s.byteAt a := by
  induction cells generalizing s with
  | nil => rfl
  | cons cell cells ih =>
    rw [List.map_cons, List.mem_cons, not_or] at h
    rw [State.placeBytes_cons, ih _ h.2, s.byteAt_placeByte_ne h.1]

/-- A byte given once for a backed address stands there. -/
theorem State.byteAt_placeBytes_of_mem (s : State) {cells : List (Word × Byte)} (hnodup : (cells.map Prod.fst).Nodup)
    {a : Word} {v : Byte} (h : (a, v) ∈ cells) (hb : Config.isBacked s.cfg a = true) :
    (s.placeBytes cells).byteAt a = v := by
  induction cells generalizing s with
  | nil => exact absurd h List.not_mem_nil
  | cons cell cells ih =>
    rw [List.map_cons, List.nodup_cons] at hnodup
    rw [State.placeBytes_cons]
    rcases List.mem_cons.1 h with rfl | hrest
    · rw [State.byteAt_placeBytes_of_notMem _ hnodup.1, s.byteAt_placeByte_self hb]
    · exact ih (s.placeByte cell) hnodup.2 hrest (by rwa [State.placeByte_cfg])

/-- A launch has the registers it is given, with the entry in `x[0]`. -/
theorem State.reg_launch (c : Config) (l : Launch) (q : Reg) :
    (State.launch c l).reg q = if q = Reg.pc then l.entry else l.regs[q.val] := by
  have hregs : (State.launch c l).regs = (State.blank c l.regs l.entry).regs := by simp [State.launch]
  calc (State.launch c l).reg q = (State.blank c l.regs l.entry).reg q := by rw [State.reg, State.reg, hregs]
    _ = _ := State.reg_setReg ⟨l.regs, [], 0, c⟩ Reg.pc q l.entry

/-- Settles O44: the image is placed last, and each placing keeps the registers, the parameters and every other byte. -/
theorem launchIsReset : Obligations.LaunchIsReset := by
  unfold Obligations.LaunchIsReset
  intro c l
  refine ⟨State.reg_launch c l Reg.pc, by simp [State.launch, State.blank], fun q hq => ?regs, fun hnodup a v hmem hb => ?image,
    fun hnodup a v hmem hout hb => ?rest, rfl⟩
  case regs => rw [State.reg_launch, if_neg hq]
  case image => exact State.byteAt_placeBytes_of_mem _ hnodup hmem (by simpa [State.blank] using hb)
  case rest =>
    rw [State.launch, State.byteAt_placeBytes_of_notMem _ hout]
    exact State.byteAt_placeBytes_of_mem _ hnodup hmem hb

end Sys2Proof.Machine
end

section
/-! PROOFS. What a step depends on (10_state.md R10, R20): two states with the same parameters, registers and backed bytes answer
alike, whatever stands outside `MEM` and whatever their counts of draws. -/

namespace Sys2Proof.Machine

/-! ## States that agree -/

/-- The two states agree on everything a step reads but the count of draws. -/
structure State.Agree (s u : State) : Prop where
  cfg  : s.cfg = u.cfg
  reg  : ∀ q : Reg, s.reg q = u.reg q
  byte : ∀ a : Word, Config.isBacked s.cfg a = true → s.byteAt a = u.byteAt a

/-- What is promised of the next states `t` of `s` and `v` of `u` after the instruction `i`: they agree, but for the destination
where the two took draws of different counts. -/
structure NextAgree (i : Instr) (s u t v : State) : Prop where
  cfg   : t.cfg = v.cfg
  draws : t.draws + u.draws = v.draws + s.draws
  byte  : ∀ a : Word, Config.isBacked s.cfg a = true → t.byteAt a = v.byteAt a
  reg   : s.draws = u.draws ∨ t.draws = s.draws → ∀ q : Reg, t.reg q = v.reg q
  other : ∀ q : Reg, i.dest? ≠ some q → t.reg q = v.reg q

/-- The two outcomes are of one kind, with one reason or with next states that agree. -/
inductive OutAgree (i : Instr) (s u : State) : Out → Out → Prop where
  | next {t v : State} (h : NextAgree i s u t v) : OutAgree i s u (.next t) (.next v)
  | fault (f : Fault) : OutAgree i s u (.fault f) (.fault f)

/-- Next states that agree on everything, after an instruction that made no draw. -/
theorem OutAgree.of_agree (i : Instr) {s u t v : State} (ht : t.draws = s.draws) (hv : v.draws = u.draws) (hcfg : t.cfg = s.cfg)
    (hnext : t.Agree v) : OutAgree i s u (.next t) (.next v) :=
  .next ⟨hnext.cfg, by omega, hcfg ▸ hnext.byte, fun _ => hnext.reg, fun q _ => hnext.reg q⟩

section
variable {s u : State} (h : s.Agree u)
include h

theorem State.Agree.pc_eq : s.pc = u.pc := h.reg Reg.pc

theorem State.Agree.wordAt_eq {a : Word} (hb : s.BackedFrom a 4) : s.wordAt a = u.wordAt a := by
  have h0 : s.byteAt a = u.byteAt a := h.byte a (by simpa using hb 0 (by decide))
  have h1 : s.byteAt (a + 1) = u.byteAt (a + 1) := h.byte _ (hb 1 (by decide))
  have h2 : s.byteAt (a + 2) = u.byteAt (a + 2) := h.byte _ (hb 2 (by decide))
  have h3 : s.byteAt (a + 3) = u.byteAt (a + 3) := h.byte _ (hb 3 (by decide))
  rw [State.wordAt, State.wordAt, h0, h1, h2, h3]

theorem State.Agree.setReg (r : Reg) (x : Word) : (s.setReg r x).Agree (u.setReg r x) :=
  ⟨h.cfg, fun q => by rw [State.reg_setReg, State.reg_setReg, h.reg], h.byte⟩

theorem State.Agree.setByte {a b : Word} (hab : a = b) {x y : Byte} (hxy : x = y) : (s.setByte a x).Agree (u.setByte b y) := by
  subst hab hxy
  exact ⟨h.cfg, h.reg, fun c hc => by rw [State.byteAt_setByte, State.byteAt_setByte, h.byte c hc]⟩

theorem State.Agree.setWord {a b : Word} (hab : a = b) {x y : Word} (hxy : x = y) : (s.setWord a x).Agree (u.setWord b y) := by
  subst hab hxy
  exact (((h.setByte rfl rfl).setByte rfl rfl).setByte rfl rfl).setByte rfl rfl

theorem State.Agree.advancePc : s.advancePc.Agree u.advancePc := by
  rw [State.advancePc, State.advancePc, h.pc_eq]
  exact h.setReg _ _

theorem State.Agree.ended_eq : s.ended = u.ended := by
  rw [State.ended, State.ended, h.cfg, h.pc_eq]

theorem State.Agree.fetchWord_eq : fetchWord s = fetchWord u := by
  have hfault : fetchFault? s = fetchFault? u := by rw [fetchFault?, fetchFault?, h.cfg, h.pc_eq]
  cases hs : fetchFault? s with
  | some f => rw [fetchWord, fetchWord, ← hfault, hs]
  | none =>
    have hbacked := (reportedUnbacked?_eq_none_iff _ _ _).1 ((fetchFault?_eq_none_iff s).1 hs).2
    rw [fetchWord, fetchWord, ← hfault, hs, ← h.pc_eq, h.wordAt_eq hbacked]

theorem State.Agree.dataFault?_eq (kind : AccessKind) (w : Width) (addr : Word) :
    dataFault? s kind w addr = dataFault? u kind w addr := by
  rw [dataFault?, dataFault?, State.currentAddr, State.currentAddr, h.cfg, h.pc_eq]

/-! ## Outcomes that agree -/

theorem OutAgree.writeDest (i : Instr) (rA : Reg) {x y : Word} (hxy : x = y) :
    OutAgree i s u (writeDest s rA x) (writeDest u rA y) := by
  subst hxy
  exact .of_agree i rfl rfl rfl (h.setReg rA x)

theorem OutAgree.binary (i : Instr) {f g : Word → Word → Word} (hfg : f = g) (rA rB rC : Reg) :
    OutAgree i s u (binary f rA rB rC s) (binary g rA rB rC u) := by
  subst hfg
  exact .writeDest h i rA (congrArg₂ f (h.reg rB) (h.reg rC))

/-- A free value is the only thing that the counts of draws decide, and it goes to the destination. -/
theorem OutAgree.shift (i : Instr) (right : Word → Nat → Word) {rA : Reg} (hdest : i.dest? = some rA) (rB rC : Reg) :
    OutAgree i s u (writeDestOrAny s rA (shifted right (s.source rB) (shiftAmount (s.source rC))))
      (writeDestOrAny u rA (shifted right (u.source rB) (shiftAmount (u.source rC)))) := by
  have hsource (q : Reg) : u.source q = s.source q := (h.reg q).symm
  rw [hsource rB, hsource rC]
  cases shifted right (s.source rB) (shiftAmount (s.source rC)) with
  | some x => exact .writeDest h i rA rfl
  | none =>
    have hother (q : Reg) (hq : q ≠ rA) : (s.countDraw.setReg rA s.anyWord).reg q = (u.countDraw.setReg rA u.anyWord).reg q := by
      rw [State.reg_setReg_ne _ _ _ _ hq, State.reg_setReg_ne _ _ _ _ hq]
      exact h.reg q
    refine .next ⟨h.cfg, ?draws, h.byte, fun hdraws => ?reg, fun q hq => hother q fun hsame => hq (hsame ▸ hdest)⟩
    case draws =>
      simp only [State.setReg_draws, State.countDraw_draws]
      omega
    case reg =>
      have hcount : s.draws = u.draws := hdraws.resolve_right (Nat.succ_ne_self s.draws)
      have hany : s.anyWord = u.anyWord := congrArg Config.freeWord hcount
      rw [hany]
      exact (State.Agree.setReg (s := s.countDraw) (u := u.countDraw) ⟨h.cfg, h.reg, h.byte⟩ rA _).reg

/-- The same access is admitted in both, or faults alike in both. -/
theorem OutAgree.dataAccess (i : Instr) (kind : AccessKind) (w : Width) {a b : Word} (hab : a = b) {t v : State}
    (hnext : dataFault? s kind w a = none → OutAgree i s u (.next t) (.next v)) :
    OutAgree i s u (dataAccess s kind w a t) (dataAccess u kind w b v) := by
  subst hab
  rw [Machine.dataAccess, Machine.dataAccess, ← h.dataFault?_eq]
  cases hs : dataFault? s kind w a with
  | some f => exact .fault f
  | none => exact hnext hs

/-- Every instruction answers alike on states that agree. -/
theorem exec_agree (i : Instr) : OutAgree i s u (exec i s) (exec i u) := by
  cases i with
  | nop => exact .of_agree _ rfl rfl rfl h
  | add rA rB rC => exact .binary h _ rfl rA rB rC
  | sub rA rB rC => exact .binary h _ rfl rA rB rC
  | and rA rB rC => exact .binary h _ rfl rA rB rC
  | orr rA rB rC => exact .binary h _ rfl rA rB rC
  | xor rA rB rC => exact .binary h _ rfl rA rB rC
  | not rA rB => exact .writeDest h _ rA (congrArg (~~~·) (h.reg rB))
  | lsh rA rB rC => exact .shift h _ shiftRightUnsigned rfl rB rC
  | ash rA rB rC => exact .shift h _ shiftRightSigned rfl rB rC
  | tcu rA rB rC => exact .binary h _ (congrArg (fun c x y => signWord c (unsignedDifference x y)) h.cfg) rA rB rC
  | tcs rA rB rC => exact .binary h _ (congrArg (fun c x y => signWord c (signedDifference x y)) h.cfg) rA rB rC
  | set rA imm => exact .writeDest h _ rA rfl
  | mov rA rB => exact .writeDest h _ rA (h.reg rB)
  | ldw rA rB =>
    refine .dataAccess h _ .load .word (h.reg rB) fun hadmitted => .writeDest h _ rA ?_
    have hbacked := ((dataFault?_word_eq_none_iff s .load _).1 hadmitted).2
    exact (h.wordAt_eq hbacked).trans (congrArg u.wordAt (h.reg rB))
  | stw rA rB =>
    exact .dataAccess h _ .store .word (h.reg rA) fun _ => .of_agree _ rfl rfl rfl (h.setWord (h.reg rA) (h.reg rB))
  | ldb rA rB =>
    refine .dataAccess h _ .load .byte (h.reg rB) fun hadmitted => .writeDest h _ rA ?_
    have hbacked := (dataFault?_byte_eq_none_iff s .load _).1 hadmitted
    exact congrArg₂ mergeByte (h.reg rA) ((h.byte _ hbacked).trans (congrArg u.byteAt (h.reg rB)))
  | stb rA rB =>
    exact .dataAccess h _ .store .byte (h.reg rA) fun _ =>
      .of_agree _ rfl rfl rfl (h.setByte (h.reg rA) (congrArg (·.extractLsb' 0 8) (h.reg rB)))

/-- A step runs one instruction in both states, or stops in both before it runs any. -/
theorem step_agree :
    (∃ i, s.AtPc i ∧ OutAgree i s.advancePc u.advancePc (step s) (step u)) ∨
    (step s = step u ∧ ∀ t, step s ≠ .next t) := by
  have hended : u.ended = s.ended := h.ended_eq.symm
  have hfetch : fetchWord u = fetchWord s := h.fetchWord_eq.symm
  rcases step_cases s with ⟨he, hs⟩ | ⟨he, f, hf, hs⟩ | ⟨he, w, e, hf, hd, hs⟩ | ⟨he, w, i, hf, hd, hs⟩
  · exact .inr ⟨hs.trans (step_of_ended (hended.trans he)).symm, by simp [hs]⟩
  · exact .inr ⟨hs.trans (step_of_fetch_error (hended.trans he) (hfetch.trans hf)).symm, by simp [hs]⟩
  · rw [h.pc_eq] at hs
    exact .inr ⟨hs.trans (step_of_decode_error (hended.trans he) (hfetch.trans hf) hd).symm, by simp [hs]⟩
  · rw [hs, step_of_decode_ok (hended.trans he) (hfetch.trans hf) hd]
    obtain ⟨-, rfl⟩ := fetchWord_eq_ok hf
    exact .inl ⟨i, hd, exec_agree h.advancePc i⟩

end

/-- Settles O46: both states stop alike before execution, or run one instruction, which reads and writes what they agree on. -/
theorem stepDependsOnlyOnRegistersAndBackedMemory : Obligations.StepDependsOnlyOnRegistersAndBackedMemory := by
  unfold Obligations.StepDependsOnlyOnRegistersAndBackedMemory
  intro s u hcfg hreg hbyte
  rcases step_agree (s := s) (u := u) ⟨hcfg, hreg, hbyte⟩ with ⟨i, hat, hout⟩ | ⟨hsame, hstop⟩
  case inl =>
    generalize step s = x, step u = y at hout
    cases hout with
    | next hn =>
      refine ⟨fun _ => ⟨nofun, nofun⟩, fun _ => ⟨nofun, nofun⟩, fun t ht => ?_⟩
      cases ht
      refine ⟨_, rfl, hn.cfg, hn.draws, hn.byte, hn.reg, fun j q hj hq => ?_⟩
      exact hn.other q (Except.ok.inj (hj.symm.trans hat) ▸ hq)
    | fault f => exact ⟨fun _ => Iff.rfl, fun _ => Iff.rfl, nofun⟩
  case inr => exact ⟨fun f => by rw [hsame], fun r => by rw [hsame], fun t ht => absurd ht (hstop t)⟩

end Sys2Proof.Machine
end

section
/-! PROOFS. Arithmetic, logic, free values and signs (40_nop_arith_logic.md R71 to R76, 41_shift.md R82, 42_compare.md R87): the
value each instruction writes; its frame is that of the form it has. -/

namespace Sys2Proof.Machine

/-! ## Arithmetic and logic -/

/-- Settles O15: the sum of words is modulo 2^32. -/
theorem addIsTheSumModulo2To32 : Obligations.AddIsTheSumModulo2To32 := by
  unfold Obligations.AddIsTheSumModulo2To32
  intro s rA rB rC
  obtain ⟨t, hnext, hvalue, hframe⟩ := binary_spec (fun x y => x + y) s rA rB rC
  exact ⟨t, hnext, by rw [hvalue, BitVec.toNat_add], hframe⟩

theorem toNat_sub_eq_emod (x y : Word) : ((x - y).toNat : Int) = ((x.toNat : Int) - (y.toNat : Int)) % 2 ^ 32 := by
  rw [BitVec.toNat_sub]
  omega

/-- Settles O16: the difference of words is modulo 2^32. -/
theorem subIsTheDifferenceModulo2To32 : Obligations.SubIsTheDifferenceModulo2To32 := by
  unfold Obligations.SubIsTheDifferenceModulo2To32
  intro s rA rB rC
  obtain ⟨t, hnext, hvalue, hframe⟩ := binary_spec (fun x y => x - y) s rA rB rC
  exact ⟨t, hnext, by rw [hvalue, toNat_sub_eq_emod], hframe⟩

/-- An instruction with two sources whose operation works on each bit alone. -/
theorem binary_bitwise_spec {f : Word → Word → Word} {g : Bool → Bool → Bool}
    (hbit : ∀ x y k, (f x y).getLsbD k = g (x.getLsbD k) (y.getLsbD k)) (s : State) (rA rB rC : Reg) :
    ∃ t, binary f rA rB rC s = .next t ∧
      (∀ k : Nat, k < 32 → (t.reg rA).getLsbD k = g ((s.reg rB).getLsbD k) ((s.reg rC).getLsbD k)) ∧
      State.SameRegsBut rA s t ∧ State.SameMem s t ∧ State.SameRest s t := by
  obtain ⟨t, hnext, hvalue, hframe⟩ := binary_spec f s rA rB rC
  exact ⟨t, hnext, fun k _ => by rw [hvalue, hbit], hframe⟩

/-- Settles O17: each of the three operations works on each bit alone. -/
theorem andOrrXorWorkBitByBit : Obligations.AndOrrXorWorkBitByBit := by
  unfold Obligations.AndOrrXorWorkBitByBit
  exact fun s rA rB rC => ⟨binary_bitwise_spec (fun _ _ _ => BitVec.getLsbD_and) s rA rB rC,
    binary_bitwise_spec (fun _ _ _ => BitVec.getLsbD_or) s rA rB rC,
    binary_bitwise_spec (fun _ _ _ => BitVec.getLsbD_xor) s rA rB rC⟩

/-- Settles O18: the complement of a word, bit by bit and as a number. -/
theorem notComplementsEveryBit : Obligations.NotComplementsEveryBit := by
  unfold Obligations.NotComplementsEveryBit
  intro s rA rB
  obtain ⟨t, hnext, hvalue, hframe⟩ := writeDest_spec s rA (~~~(s.reg rB))
  refine ⟨t, hnext, fun k hk => ?bit, by rw [hvalue, BitVec.toNat_not], hframe⟩
  case bit => simp [hvalue, hk]

/-! ## Shifts out of range -/

/-- `lsh` and `ash` differ in the shift to the right only. -/
theorem exec_shift {i : Instr} {rA rB rC : Reg} (hi : i = .lsh rA rB rC ∨ i = .ash rA rB rC) (s : State) :
    ∃ right, exec i s = writeDestOrAny s rA (shifted right (s.reg rB) (s.reg rC).toInt) := by
  rcases hi with rfl | rfl
  · exact ⟨shiftRightUnsigned, rfl⟩
  · exact ⟨shiftRightSigned, rfl⟩

theorem exec_shift_out_of_range {i : Instr} {s : State} {rA rB rC : Reg} (hi : i = .lsh rA rB rC ∨ i = .ash rA rB rC)
    (hn : (s.reg rC).toInt ≤ -32 ∨ 32 ≤ (s.reg rC).toInt) : exec i s = .next (s.countDraw.setReg rA s.anyWord) := by
  obtain ⟨right, hexec⟩ := exec_shift hi s
  rw [hexec, shifted_eq_none_of hn]
  rfl

theorem exec_shift_in_range {i : Instr} {s : State} {rA rB rC : Reg} (hi : i = .lsh rA rB rC ∨ i = .ash rA rB rC)
    (hlow : -31 ≤ (s.reg rC).toInt) (hhigh : (s.reg rC).toInt ≤ 31) : ∃ v, exec i s = .next (s.setReg rA v) := by
  obtain ⟨right, hexec⟩ := exec_shift hi s
  rw [hexec]
  rcases writeDestOrAny_cases s rA (shifted right (s.reg rB) (s.reg rC).toInt) with ⟨v, -, hnext⟩ | ⟨hnone, -⟩
  · exact ⟨v, hnext⟩
  · rcases shifted_eq_none hnone with hn | hn <;> omega

/-- Settles O21: out of range the value is the next draw, and in range a value that is no draw. -/
theorem shiftsOutOfRangeTakeTheNextFreeValue : Obligations.ShiftsOutOfRangeTakeTheNextFreeValue := by
  unfold Obligations.ShiftsOutOfRangeTakeTheNextFreeValue
  intro s i rA rB rC hi
  refine ⟨fun hn => ?out_of_range, fun hlow hhigh => ?in_range⟩
  case out_of_range =>
    exact ⟨_, exec_shift_out_of_range hi hn, s.countDraw.reg_setReg_self rA _, rfl,
      fun q hq => s.countDraw.reg_setReg_ne rA q _ hq, fun _ => rfl, rfl⟩
  case in_range =>
    obtain ⟨v, hnext⟩ := exec_shift_in_range hi hlow hhigh
    exact ⟨_, hnext, rfl⟩

/-- No other effect counts a draw. -/
theorem Effect.draws_eq {i : Instr} {s t : State} (h : Effect i s t)
    (hrange : ∀ rA rB rC, i = .lsh rA rB rC ∨ i = .ash rA rB rC → -31 ≤ (s.reg rC).toInt ∧ (s.reg rC).toInt ≤ 31) :
    t.draws = s.draws := by
  cases h with
  | free rA rB rC hi hn =>
    obtain ⟨hlow, hhigh⟩ := hrange rA rB rC hi
    omega
  | nothing | register | word | byte => rfl

/-- Settles O22: of the effects of a step only the free value counts a draw, and it is that of a shift out of range. -/
theorem onlyShiftsOutOfRangeDraw : Obligations.OnlyShiftsOutOfRangeDraw := by
  unfold Obligations.OnlyShiftsOutOfRangeDraw
  intro s t hstep
  obtain ⟨i, -, -, hdecode, hexec⟩ := step_eq_next hstep
  have hat {j : Instr} (hj : s.AtPc j) : i = j := Except.ok.inj (hdecode.symm.trans hj)
  refine ⟨fun rA rB rC hshift hn => ?out_of_range, fun hrange => ?in_range⟩
  case out_of_range =>
    rw [← s.reg_advancePc_eq_during rC] at hn
    have hnext := exec_shift_out_of_range (hshift.imp hat hat) hn
    cases hexec.symm.trans hnext
    exact ⟨rfl, s.advancePc.countDraw.reg_setReg_self rA _⟩
  case in_range =>
    refine (exec_effect hexec).draws_eq fun rA rB rC hi => ?_
    rw [s.reg_advancePc_eq_during rC]
    have hdecoded {j : Instr} (hj : i = j) : s.AtPc j := hj ▸ hdecode
    exact hrange rA rB rC (hi.imp hdecoded hdecoded)

/-! ## The default signs -/

/-- With the sign values of the vectors the stored sign is the signum. -/
theorem toInt_signWord_of_vectors {c : Config} (hneg : c.signNeg = Config.vectors.signNeg)
    (hzero : c.signZero = Config.vectors.signZero) (hpos : c.signPos = Config.vectors.signPos) (d : Int) :
    (signWord c d).toInt = d.sign := by
  rcases lt_trichotomy d 0 with hd | hd | hd
  · rw [signWord_of_neg c hd, hneg, Int.sign_eq_neg_one_of_neg hd]
    rfl
  · rw [signWord_of_zero c hd, hzero, hd]
    rfl
  · rw [signWord_of_pos c hd, hpos, Int.sign_eq_one_of_pos hd]
    rfl

/-- Settles O25: both comparisons store the sign of their exact difference. -/
theorem defaultSignsAreTheSignum : Obligations.DefaultSignsAreTheSignum := by
  unfold Obligations.DefaultSignsAreTheSignum
  intro s rA rB rC hneg hzero hpos
  have hsign (d : Word → Word → Int) : ∃ t, binary (fun x y => signWord s.cfg (d x y)) rA rB rC s = .next t ∧
      (t.reg rA).toInt = (d (s.reg rB) (s.reg rC)).sign := by
    obtain ⟨t, hnext, hvalue, -⟩ := binary_spec (fun x y => signWord s.cfg (d x y)) s rA rB rC
    exact ⟨t, hnext, by rw [hvalue, toInt_signWord_of_vectors hneg hzero hpos]⟩
  exact ⟨hsign unsignedDifference, hsign signedDifference⟩

end Sys2Proof.Machine
end

section
/-! PROOFS. The step by the form of its instruction (45_control_transfer.md R104, section 1): what the destination holds and where a
store puts its bytes, sources that are `r0` reading as `a + 4`; then what a transfer meets at its target. -/

namespace Sys2Proof.Machine

@[simp] theorem State.during_pc (s : State) : s.during Reg.pc = s.pc + 4 := if_pos rfl

theorem State.during_of_ne (s : State) {r : Reg} (h : r ≠ Reg.pc) : s.during r = s.reg r := if_neg h

theorem toNat_wordAt (s : State) (a : Word) : (s.wordAt a).toNat = (s.byteAt a).toNat + 2 ^ 8 * (s.byteAt (a + 1)).toNat +
    2 ^ 16 * (s.byteAt (a + 2)).toNat + 2 ^ 24 * (s.byteAt (a + 3)).toNat :=
  Fields.toNat_toWord ⟨s.byteAt a, s.byteAt (a + 1), s.byteAt (a + 2), s.byteAt (a + 3)⟩

/-- A merge replaces the lowest digit to the base 256 (R97). -/
theorem toNat_mergeByte (old : Word) (b : Byte) : (mergeByte old b).toNat = old.toNat / 256 * 256 + b.toNat := by
  rw [mergeByte, toNat_append_eq_add, toNat_extractLsb'_eq_div_mod]
  omega

/-! ## A step, by the form of its instruction -/

section
variable {s : State} {i : Instr} {rA rB rC : Reg} (hfetch : s.Fetchable)
include hfetch

theorem step_writeDest {v : Word} (hat : s.AtPc i) (hexec : exec i s.advancePc = writeDest s.advancePc rA v) :
    ∃ t, step s = .next t ∧ t.reg rA = v ∧ t.cfg = s.cfg :=
  ⟨_, (step_eq_exec_advancePc hfetch hat).trans hexec, s.advancePc.reg_setReg_self rA v, rfl⟩

theorem step_binary (f : Word → Word → Word) (hat : s.AtPc i)
    (hexec : exec i s.advancePc = binary f rA rB rC s.advancePc) :
    ∃ t, step s = .next t ∧ t.reg rA = f (s.during rB) (s.during rC) := by
  obtain ⟨t, hnext, hvalue, -⟩ := binary_spec f s.advancePc rA rB rC
  rw [s.reg_advancePc_eq_during, s.reg_advancePc_eq_during] at hvalue
  exact ⟨t, ((step_eq_exec_advancePc hfetch hat).trans hexec).trans hnext, hvalue⟩

theorem step_compare (difference : Word → Word → Int) (hat : s.AtPc i)
    (hexec : exec i s.advancePc = binary (fun x y => signWord s.cfg (difference x y)) rA rB rC s.advancePc) :
    ∃ t, step s = .next t ∧ (difference (s.during rB) (s.during rC) < 0 → t.reg rA = s.cfg.signNeg) ∧
      (difference (s.during rB) (s.during rC) = 0 → t.reg rA = s.cfg.signZero) ∧
      (0 < difference (s.during rB) (s.during rC) → t.reg rA = s.cfg.signPos) := by
  obtain ⟨t, hnext, hvalue⟩ := step_binary hfetch _ hat hexec
  exact ⟨t, hnext, fun h => hvalue.trans (signWord_of_neg s.cfg h), fun h => hvalue.trans (signWord_of_zero s.cfg h),
    fun h => hvalue.trans (signWord_of_pos s.cfg h)⟩

theorem step_shift (right : Word → Nat → Word) (hi : i = .lsh rA rB rC ∨ i = .ash rA rB rC) (hat : s.AtPc i)
    (hexec : ∀ u, exec i u = writeDestOrAny u rA (shifted right (u.source rB) (shiftAmount (u.source rC)))) :
    ∃ t, step s = .next t ∧ ∀ n : Int, n = (s.during rC).toInt →
      (1 ≤ n → n ≤ 31 → (t.reg rA).toNat = (s.during rB).toNat * 2 ^ n.toNat % 2 ^ 32) ∧
      (n = 0 → t.reg rA = s.during rB) ∧
      (-31 ≤ n → n ≤ -1 → t.reg rA = right (s.during rB) (-n).toNat) ∧
      (n ≤ -32 ∨ 32 ≤ n → t.reg rA = Config.freeWord s.draws) := by
  obtain ⟨t, hnext, hvalue, -⟩ := shift_spec right s.advancePc rA rB rC
  rw [← hexec] at hnext
  simp only [s.reg_advancePc_eq_during] at hvalue
  refine ⟨t, (step_eq_exec_advancePc hfetch hat).trans hnext, fun n hn => ?_⟩
  obtain ⟨hleft, hzero, hright⟩ := hvalue n hn
  refine ⟨hleft, hzero, hright, fun hout => ?free⟩
  case free =>
    rw [hn, ← s.reg_advancePc_eq_during rC] at hout
    cases hnext.symm.trans (exec_shift_out_of_range hi hout)
    exact s.advancePc.countDraw.reg_setReg_self rA _

theorem step_ldw (hat : s.AtPc (.ldw rA rB)) (ha : s.WordAligned (s.during rB)) (hb : s.BackedFrom (s.during rB) 4) :
    step s = .next (s.advancePc.setReg rA (s.wordAt (s.during rB))) := by
  rw [← s.reg_advancePc_eq_during rB] at ha hb ⊢
  exact (step_eq_exec_advancePc hfetch hat).trans (exec_ldw_of_backed rA ha hb)

theorem step_ldb (hat : s.AtPc (.ldb rA rB)) (hb : Config.isBacked s.cfg (s.during rB) = true) :
    step s = .next (s.advancePc.setReg rA (mergeByte (s.during rA) (s.byteAt (s.during rB)))) := by
  rw [← s.reg_advancePc_eq_during rB] at hb ⊢
  rw [← s.reg_advancePc_eq_during rA]
  exact (step_eq_exec_advancePc hfetch hat).trans (exec_ldb_of_backed rA hb)

theorem step_stw (hat : s.AtPc (.stw rA rB)) (ha : s.WordAligned (s.during rA)) (hb : s.BackedFrom (s.during rA) 4) :
    step s = .next (s.advancePc.setWord (s.during rA) (s.during rB)) := by
  rw [← s.reg_advancePc_eq_during rA] at ha hb ⊢
  rw [← s.reg_advancePc_eq_during rB]
  exact (step_eq_exec_advancePc hfetch hat).trans (exec_stw_of_backed rB ha hb)

theorem step_stb (hat : s.AtPc (.stb rA rB)) (hb : Config.isBacked s.cfg (s.during rA) = true) :
    step s = .next (s.advancePc.setByte (s.during rA) ((s.during rB).extractLsb' 0 8)) := by
  rw [← s.reg_advancePc_eq_during rA] at hb ⊢
  rw [← s.reg_advancePc_eq_during rB]
  exact (step_eq_exec_advancePc hfetch hat).trans (exec_stb_of_backed rB hb)

/-- The word after an instruction that could be fetched is aligned as the instruction is. -/
theorem wordAligned_pc_add_four : s.WordAligned (s.pc + 4) := by
  obtain ⟨-, haligned, -⟩ := hfetch
  refine haligned.imp_right fun hpc => ?_
  rw [BitVec.toNat_add, show (4 : Word).toNat = 4 from rfl]
  omega

end

/-! ## The targets -/

/-- Settles O33: the result of each form, written to `x[0]`. -/
theorem transferTargetsAreTheResults : Obligations.TransferTargetsAreTheResults := by
  unfold Obligations.TransferTargetsAreTheResults
  intro s hfetch rB rC
  refine ⟨fun imm hat => ?set, fun hat => ?mov, fun hat => ?add, fun hat => ?sub, fun hat ha hb => ?ldw, fun hat hb => ?ldb,
    fun hat => ?and, fun hat => ?orr, fun hat => ?xor, fun hat => ?not, fun hat => ?tcu, fun hat => ?tcs, fun hat => ?lsh,
    fun hat => ?ash⟩
  case add => exact step_binary hfetch (fun x y => x + y) hat rfl
  case sub => exact step_binary hfetch (fun x y => x - y) hat rfl
  case and => exact step_binary hfetch (fun x y => x &&& y) hat rfl
  case orr => exact step_binary hfetch (fun x y => x ||| y) hat rfl
  case xor => exact step_binary hfetch (fun x y => x ^^^ y) hat rfl
  case set =>
    obtain ⟨t, hnext, hvalue, -⟩ := step_writeDest hfetch hat rfl
    exact ⟨t, hnext, hvalue⟩
  case mov =>
    obtain ⟨t, hnext, hvalue, -⟩ := step_writeDest hfetch hat rfl
    exact ⟨t, hnext, hvalue.trans (s.reg_advancePc_eq_during rB)⟩
  case ldw =>
    exact ⟨_, step_ldw hfetch hat ha hb, by rw [State.pc, State.reg_setReg_self, toNat_wordAt]⟩
  case ldb =>
    exact ⟨_, step_ldb hfetch hat hb, by rw [State.pc, State.reg_setReg_self, toNat_mergeByte, State.during_pc]⟩
  case not =>
    obtain ⟨t, hnext, hvalue, -⟩ := step_writeDest hfetch hat rfl
    exact ⟨t, hnext, hvalue.trans (congrArg (~~~·) (s.reg_advancePc_eq_during rB))⟩
  case tcu =>
    obtain ⟨t, hnext, hneg, hzero, hpos⟩ := step_compare hfetch unsignedDifference hat rfl
    exact ⟨t, hnext, hneg ∘ unsignedDifference_neg_iff.2, hzero ∘ unsignedDifference_eq_zero_iff.2,
      hpos ∘ unsignedDifference_pos_iff.2⟩
  case tcs =>
    obtain ⟨t, hnext, hneg, hzero, hpos⟩ := step_compare hfetch signedDifference hat rfl
    exact ⟨t, hnext, hneg ∘ signedDifference_neg_iff.2, hzero ∘ signedDifference_eq_zero_iff.2,
      hpos ∘ signedDifference_pos_iff.2⟩
  case lsh =>
    obtain ⟨t, hnext, hvalue⟩ := step_shift hfetch shiftRightUnsigned (.inl rfl) hat fun _ => rfl
    refine ⟨t, hnext, fun n hn => ?_⟩
    obtain ⟨hleft, hzero, hright, hfree⟩ := hvalue n hn
    exact ⟨hleft, hzero, fun hlow hhigh => by rw [State.pc, hright hlow hhigh, toNat_shiftRightUnsigned], hfree⟩
  case ash =>
    obtain ⟨t, hnext, hvalue⟩ := step_shift hfetch shiftRightSigned (.inr rfl) hat fun _ => rfl
    refine ⟨t, hnext, fun n hn => ?_⟩
    obtain ⟨hleft, hzero, hright, hfree⟩ := hvalue n hn
    exact ⟨hleft, hzero, fun hlow hhigh => by rw [State.pc, hright hlow hhigh, toInt_shiftRightSigned], hfree⟩

/-- Settles O34: `r0` reads as `a + 4` and every other register as before the step. -/
theorem readingThePcGivesTheNextInstructionsAddress : Obligations.ReadingThePcGivesTheNextInstructionsAddress := by
  unfold Obligations.ReadingThePcGivesTheNextInstructionsAddress
  intro s hfetch r q hr
  have hpc := s.during_pc
  have hreg := s.during_of_ne hr
  refine ⟨fun hat => ?mov, fun hq hat => ?add, fun hq hat => ?sub, fun hat hb => ?ldw, fun hat ha hb => ?stw,
    fun hat hb => ?stb⟩
  case mov =>
    obtain ⟨t, hnext, hvalue, -⟩ := step_writeDest hfetch hat rfl
    exact ⟨t, hnext, hvalue.trans s.pc_advancePc⟩
  case add =>
    rw [← hpc, ← s.during_of_ne hq]
    exact step_binary hfetch (fun x y => x + y) hat rfl
  case sub =>
    rw [← hpc, ← s.during_of_ne hq]
    exact step_binary hfetch (fun x y => x - y) hat rfl
  case ldw =>
    have ha := wordAligned_pc_add_four hfetch
    rw [← hpc] at ha hb ⊢
    exact ⟨_, step_ldw hfetch hat ha hb, State.reg_setReg_self _ _ _⟩
  case stw =>
    rw [← hreg] at ha hb ⊢
    exact ⟨_, step_stw hfetch hat ha hb, (State.wordAt_setWord _ _ _).trans hpc⟩
  case stb =>
    rw [← hpc] at hb ⊢
    exact ⟨_, step_stb hfetch hat hb, by rw [State.byteAt_setByte_self, hreg]⟩

/-! ## What a transfer meets at its target -/

theorem dataAccess_of_dataFault {s : State} {kind : AccessKind} {w : Width} {addr : Word} {f : Fault}
    (h : dataFault? s kind w addr = some f) (after : State) : dataAccess s kind w addr after = .fault f := by
  simp [dataAccess, raise, h]

/-- Whether a load faults does not depend on its destination. -/
theorem load_fault_of_dest_pc {i : Instr} {s : State} {f : Fault} (hdest : i.dest? = some Reg.pc) (h : exec i s = .fault f) :
    ∃ rB, (i = .ldw Reg.pc rB ∧ ∀ rA, exec (.ldw rA rB) s = .fault f) ∨
      (i = .ldb Reg.pc rB ∧ ∀ rA, exec (.ldb rA rB) s = .fault f) := by
  cases exec_eq_fault h with
  | ldw rA rB hi hf =>
    subst hi
    obtain rfl : rA = Reg.pc := Option.some.inj hdest
    exact ⟨rB, .inl ⟨rfl, fun _ => dataAccess_of_dataFault hf _⟩⟩
  | ldb rA rB hi hf =>
    subst hi
    obtain rfl : rA = Reg.pc := Option.some.inj hdest
    exact ⟨rB, .inr ⟨rfl, fun _ => dataAccess_of_dataFault hf _⟩⟩
  | stw rA rB hi | stb rA rB hi =>
    subst hi
    cases hdest

theorem Run.advanceBy_of_next {s t : State} (h : step s = .next t) (k : Nat) :
    Run.advanceBy (k + 1) (Run.start s) = Run.advanceBy k (Run.start t) := by
  rw [Run.advanceBy, Run.advance_of_next h]

/-- Settles O35: a transfer is a write of a register like any other, and the run stops at the step after it. -/
theorem transfersFaultAtTheirTarget : Obligations.TransfersFaultAtTheirTarget := by
  unfold Obligations.TransfersFaultAtTheirTarget
  refine ⟨fun s rB hfetch hat => ?mov, fun s i f => load_fault_of_dest_pc,
    fun s t hstep => ⟨fun hend k => ?ended, fun hend => ?faulted⟩⟩
  case mov =>
    obtain ⟨t, hnext, hvalue, hcfg⟩ := step_writeDest hfetch hat rfl
    exact ⟨t, hnext, hvalue.trans (s.reg_advancePc_eq_during rB), hcfg⟩
  case ended =>
    rw [Run.advanceBy_of_next hstep, Run.advanceBy_succ_of_ended (t.ended_eq_true_iff.2 hend)]
  case faulted =>
    have hstop {f : Fault} (hf : step t = .fault f) (k : Nat) : Run.advanceBy (k + 2) (Run.start s) = ⟨t, .faulted f⟩ := by
      rw [Run.advanceBy_of_next hstep, Run.advanceBy_succ_of_fault hf]
    obtain ⟨hmisaligned, hunbacked, hhole, hillegal⟩ := fetchAndDecodeFaultInOrder t hend
    refine ⟨fun hm ha => hstop (hmisaligned hm ha), fun ha hb => ?_, fun ha j hj hh => hstop (hhole ha j hj hh),
      fun ha hb hi => hstop (hillegal ha hb hi)⟩
    obtain ⟨b, htouched, hb', hfault⟩ := hunbacked ha hb
    exact ⟨b, htouched, hb', hstop hfault⟩

end Sys2Proof.Machine
end

section
/-! PROOFS. What is stored is read back (20_memory.md section 5): by the loads that follow, and by the very next fetch. -/

namespace Sys2Proof.Machine

/-- The byte at offset `k` of a stored word is its byte `k` (R34). -/
theorem byteAt_setWord_offset (s : State) (a v : Word) {k : Nat} (hk : k < 4) :
    (s.setWord a v).byteAt (a + BitVec.ofNat 32 k) = v.extractLsb' (8 * k) 8 := by
  obtain ⟨h0, h1, h2, h3⟩ := byteAt_setWord_offsets s a v
  match k, hk with
  | 0, _ => simpa using h0
  | 1, _ => exact h1
  | 2, _ => exact h2
  | 3, _ => exact h3

/-- Settles O37: the store was admitted, so the loads are, and they read the bytes of the stored word. -/
theorem loadsReturnTheStoredWordAndItsBytes : Obligations.LoadsReturnTheStoredWordAndItsBytes := by
  unfold Obligations.LoadsReturnTheStoredWordAndItsBytes
  intro s t rA rB rC hstore
  obtain ⟨hadmitted, rfl⟩ := dataAccess_eq_next hstore
  obtain ⟨ha, hb⟩ := (dataFault?_word_eq_none_iff _ _ _).1 hadmitted
  refine ⟨?word, fun rD k hk haddr => ?byte⟩
  case word => exact ⟨_, exec_ldw_of_backed rC ha hb, (State.reg_setReg_self _ _ _).trans (State.wordAt_setWord _ _ _)⟩
  case byte =>
    refine ⟨_, exec_ldb_of_backed rC (by rw [haddr]; exact hb k hk), ?_⟩
    rw [State.reg_setReg_self, toNat_mergeByte, haddr]
    have hbyte := byteAt_setWord_offset s (s.reg rA) (s.reg rB) hk
    have hnumber := (congrArg BitVec.toNat hbyte).trans (toNat_extractLsb'_eq_div_mod _ _ _)
    exact congrArg (_ + ·) hnumber

/-- Settles O38: after the store `x[0]` is `a + 4`, where the stored word stands and can be fetched. -/
theorem aStoreIsSeenByTheVeryNextFetch : Obligations.AStoreIsSeenByTheVeryNextFetch := by
  unfold Obligations.AStoreIsSeenByTheVeryNextFetch
  intro s rB j hfetch hat hb hend hdecode
  have ha := wordAligned_pc_add_four hfetch
  have hstep := step_stw hfetch hat (s.during_pc.symm ▸ ha) (s.during_pc.symm ▸ hb)
  rw [State.during_pc] at hstep
  have hpc : (s.advancePc.setWord (s.pc + 4) (s.during rB)).pc = s.pc + 4 := s.pc_advancePc
  generalize ht : s.advancePc.setWord (s.pc + 4) (s.during rB) = t at hstep hpc
  have hcfg : t.cfg = s.cfg := by rw [← ht]; rfl
  have hfetch' : t.Fetchable := by
    rw [State.Fetchable, hpc, hcfg]
    exact ⟨hend, ha, hb⟩
  have hat' : t.AtPc j := by
    rw [State.AtPc, hpc, ← ht, State.wordAt_setWord, hdecode]
  refine ⟨t, hstep, hpc, step_eq_exec_advancePc hfetch' hat', ?_⟩
  rw [State.pc_advancePc, hpc, add_assoc]
  rfl

end Sys2Proof.Machine
end
